-- ==== Sys2Proof/Word.lean ====
section
/-! DEFINITION. The widths of the machine's cells (00_scope.md R7, 10_state.md section 1). Every value is unsigned. -/

namespace Sys2Proof

/-- A memory cell, a general register or a timer: 8 bits (10_state.md R20, R27, R28). -/
abbrev Byte := BitVec 8

/-- An instruction's value, and any other 16-bit value (30_encoding.md R80). -/
abbrev Word := BitVec 16

/-- A 4-bit field: a register index `X` or `Y`, a row count `N`, a family `F` (30_encoding.md R82). -/
abbrev Nibble := BitVec 4

/-- The 12-bit field `NNN` (30_encoding.md R82). -/
abbrev Addr12 := BitVec 12

/-- `FINFO`: 17 bits (10_state.md R31). -/
abbrev Info := BitVec 17

end Sys2Proof
end

