-- ==== Sys2Proof/Config.lean ====
section
/-! DEFINITION. What an implementation fixes: the literals and the parameters of 00_scope.md R5, and the free values the
spec leaves to the host (`key_in`, `rnd_in`, the instants of the tick), which no proof can evaluate. -/

namespace Sys2Proof

/-! ## Literals the source states (00_scope.md R5) -/

/-- `MEM_SIZE`, bytes of memory. -/
abbrev memSize : Nat := 4096
/-- `ADDR_MAX` = `MEM_SIZE` − 1. -/
abbrev addrMax : Nat := 0xFFF
/-- `FONT_BASE`, the address of glyph 0. -/
abbrev fontBase : Nat := 0x050
/-- `FONT_LEN`, bytes of the glyph table. -/
abbrev fontLen : Nat := 80
/-- `GLYPH_STRIDE`, bytes per glyph. -/
abbrev glyphStride : Nat := 5
/-- The glyphs of the table: `FONT_LEN` / `GLYPH_STRIDE` = 16. -/
abbrev nGlyphs : Nat := fontLen / glyphStride
/-- `PROG_BASE`, where the host loads a program. -/
abbrev progBase : Nat := 0x200
/-- `PROG_MAX_LEN`, the longest image that is loaded. -/
abbrev progMaxLen : Nat := 3584
/-- `NREGS`, general registers. -/
abbrev nRegs : Nat := 16
/-- `FLAG_REG`, the register that doubles as the flag. -/
abbrev flagReg : Nibble := 0xF
/-- `PC_WIDTH`, bits of `pc`, of a stack slot and of `FPC`. -/
abbrev pcWidth : Nat := 16
/-- `I_WIDTH`, bits of the index register. -/
abbrev iWidth : Nat := 16
/-- `STACK_DEPTH`, slots of the call stack. -/
abbrev stackDepth : Nat := 16
/-- `FB_W`, columns of the framebuffer. -/
abbrev fbW : Nat := 64
/-- `FB_H`, rows of the framebuffer. -/
abbrev fbH : Nat := 32
/-- `NKEYS`, key lines. -/
abbrev nKeys : Nat := 16
/-- `INSN_BYTES`, the length of every instruction: the 2 by which the fetch, a skip and the waiting FX0A move `pc`. -/
abbrev insnBytes : Nat := 2
/-- `REFRESH_HZ`, the nominal rate of the tick. The model holds no time (00_scope.md R4 (d)), so no definition reads it. -/
abbrev refreshHz : Nat := 60

/-! ## Points the source leaves open (00_scope.md R5, 92_eei_decisions.md) -/

/-- `ADDR_POLICY` (D4, D5): an address above 0xFFF is a fatal error, or is taken modulo 4096. -/
inductive AddrPolicy where
  | fault
  | wrap
  deriving DecidableEq, Repr

/-- `SUB_FLAG` (D6): what 8XY5 and 8XY7 write into the flag. -/
inductive SubFlag where
  | notBorrowGe
  | notBorrowGt
  | borrow
  deriving DecidableEq, Repr

/-- `SHIFT_SRC` (D7): the register 8XY6 and 8XYE shift. -/
inductive ShiftSrc where
  | vx
  | vy
  deriving DecidableEq, Repr

/-- `KEY_INDEX_POLICY` (D10): a key index above 15 is a fatal error, or only its low four bits are used. -/
inductive KeyIndexPolicy where
  | fault
  | mask4
  deriving DecidableEq, Repr

/-- The glyph table: 16 glyphs of 5 rows, top row first (20_memory.md R53). -/
abbrev Font := Vector (Vector Byte glyphStride) nGlyphs

/-- The parameters of the machine that the source leaves open (00_scope.md R5). -/
structure Config where
  /-- `RESET_PC` (D2). -/
  resetPc : BitVec pcWidth
  /-- `FONT[0..79]` (D3). -/
  font : Font
  /-- `ADDR_POLICY` (D4, D5). -/
  addrPolicy : AddrPolicy
  /-- `SUB_FLAG` (D6). -/
  subFlag : SubFlag
  /-- `SHIFT_SRC` (D7). -/
  shiftSrc : ShiftSrc
  /-- `LDST_INCREMENTS_I` (D8). -/
  ldstIncrementsI : Bool
  /-- `ADDI_SETS_VF` (D9). -/
  addISetsVf : Bool
  /-- `KEY_INDEX_POLICY` (D10). -/
  keyIndexPolicy : KeyIndexPolicy
  /-- `STRICT_DECODE` (D11). -/
  strictDecode : Bool
  deriving DecidableEq, Repr

/-- Glyphs 0 to 7 of 20_memory.md R53. PRESUMED by the spec itself (G1): log 2. -/
def fontLow : Vector (Vector Byte glyphStride) 8 :=
  #v[#v[0xF0, 0x90, 0x90, 0x90, 0xF0],
     #v[0x20, 0x60, 0x20, 0x20, 0x70],
     #v[0xF0, 0x10, 0xF0, 0x80, 0xF0],
     #v[0xF0, 0x10, 0xF0, 0x10, 0xF0],
     #v[0x90, 0x90, 0xF0, 0x10, 0x10],
     #v[0xF0, 0x80, 0xF0, 0x10, 0xF0],
     #v[0xF0, 0x80, 0xF0, 0x90, 0xF0],
     #v[0xF0, 0x10, 0x20, 0x40, 0x40]]

/-- Glyphs 8 to F of 20_memory.md R53. PRESUMED by the spec itself (G1): log 2. -/
def fontHigh : Vector (Vector Byte glyphStride) 8 :=
  #v[#v[0xF0, 0x90, 0xF0, 0x90, 0xF0],
     #v[0xF0, 0x90, 0xF0, 0x10, 0xF0],
     #v[0xF0, 0x90, 0xF0, 0x90, 0x90],
     #v[0xE0, 0x90, 0xE0, 0x90, 0xE0],
     #v[0xF0, 0x80, 0x80, 0x80, 0xF0],
     #v[0xE0, 0x90, 0x90, 0x90, 0xE0],
     #v[0xF0, 0x80, 0xF0, 0x80, 0xF0],
     #v[0xF0, 0x80, 0xF0, 0x80, 0x80]]

/-- The defaults of 00_scope.md R5. DESIGN CHOICE of the spec at each point: log 1 to 9. -/
def Config.default : Config where
  resetPc := 0x200
  font := fontLow ++ fontHigh
  addrPolicy := .fault
  subFlag := .notBorrowGe
  shiftSrc := .vx
  ldstIncrementsI := false
  addISetsVf := false
  keyIndexPolicy := .fault
  strictDecode := true

/-! ## Free values: nothing constrains them -/

/-- The level of `key_in` at a sample the host has not fixed beforehand (U19): any value. Log 16. -/
opaque Config.freeKeyIn : Nat → BitVec nKeys

/-- The level of `rnd_in` in a cycle for which the host has not fixed it beforehand (U13, D17): any value. Log 15. -/
opaque Config.freeRndIn : Nat → Byte

/-- Whether a tick falls on a boundary for which the host has not fixed it beforehand (U20, D13): either. Log 11. -/
opaque Config.freeTick : Nat → Bool

end Sys2Proof
end

