-- ==== Sys2Proof/Machine/Params.lean ====
section
/-! DEFINITION. The parameter values this model runs with, read by the decoder, the reset state and the meanings. -/

namespace Sys2Proof.Machine

/-- The machine's parameters: the spec's defaults (00_scope.md R5; log 1 to 9). -/
def params : Config := Config.default

end Sys2Proof.Machine
end

