-- ==== Sys2Proof/Machine/OpcodeMap.lean ====
section
/-! DEFINITION. The opcode map as the spec prints it: one mask and match per row (30_encoding.md R86). The decoder is
written from the dispatch rules R87 to R91 instead; that the two agree is a statement. -/

namespace Sys2Proof.Machine

/-- A row of the opcode map: `op` selects it when `op and mask = match` (30_encoding.md R86). -/
structure OpcodeRow where
  mask : Word
  pattern : Word
  deriving DecidableEq, Repr

/-- Whether a 16-bit value selects the row. -/
def OpcodeRow.selects (r : OpcodeRow) (op : Word) : Bool := op &&& r.mask == r.pattern

/-- The rows of families 0, 5 and 9, whose exactness is `STRICT_DECODE` (30_encoding.md R88, R90; D11): when it is false
families 5 and 9 ignore N and family 0 matches on the low byte only. -/
def rowsByStrictness (strict : Bool) : List OpcodeRow :=
  if strict then [⟨0xFFFF, 0x00E0⟩, ⟨0xFFFF, 0x00EE⟩, ⟨0xF00F, 0x5000⟩, ⟨0xF00F, 0x9000⟩]
  else [⟨0xF0FF, 0x00E0⟩, ⟨0xF0FF, 0x00EE⟩, ⟨0xF000, 0x5000⟩, ⟨0xF000, 0x9000⟩]

/-- The rows of the families that hold one instruction each (30_encoding.md R87). -/
def rowsByFamily : List OpcodeRow :=
  [⟨0xF000, 0x1000⟩, ⟨0xF000, 0x2000⟩, ⟨0xF000, 0x3000⟩, ⟨0xF000, 0x4000⟩, ⟨0xF000, 0x6000⟩, ⟨0xF000, 0x7000⟩,
   ⟨0xF000, 0xA000⟩, ⟨0xF000, 0xB000⟩, ⟨0xF000, 0xC000⟩, ⟨0xF000, 0xD000⟩]

/-- The rows of family 8 (30_encoding.md R89). -/
def rowsFamily8 : List OpcodeRow :=
  [⟨0xF00F, 0x8000⟩, ⟨0xF00F, 0x8001⟩, ⟨0xF00F, 0x8002⟩, ⟨0xF00F, 0x8003⟩, ⟨0xF00F, 0x8004⟩, ⟨0xF00F, 0x8005⟩,
   ⟨0xF00F, 0x8006⟩, ⟨0xF00F, 0x8007⟩, ⟨0xF00F, 0x800E⟩]

/-- The rows of families E and F (30_encoding.md R91). -/
def rowsFamiliesEF : List OpcodeRow :=
  [⟨0xF0FF, 0xE09E⟩, ⟨0xF0FF, 0xE0A1⟩, ⟨0xF0FF, 0xF007⟩, ⟨0xF0FF, 0xF00A⟩, ⟨0xF0FF, 0xF015⟩, ⟨0xF0FF, 0xF018⟩,
   ⟨0xF0FF, 0xF01E⟩, ⟨0xF0FF, 0xF029⟩, ⟨0xF0FF, 0xF033⟩, ⟨0xF0FF, 0xF055⟩, ⟨0xF0FF, 0xF065⟩]

/-- The 34 rows of the opcode map (30_encoding.md R86). -/
def opcodeRows (strict : Bool) : List OpcodeRow :=
  rowsByStrictness strict ++ rowsByFamily ++ rowsFamily8 ++ rowsFamiliesEF

/-- Whether a 16-bit value is one of the 34 instructions (30_encoding.md R92 calls the others unrecognised). -/
def recognised (strict : Bool) (op : Word) : Bool := (opcodeRows strict).any (·.selects op)

end Sys2Proof.Machine
end

