-- ==== Sys2Proof/Syntax.lean ====
section
/-! DEFINITION. The instruction set: one constructor for each row of spec/opcode_table.json (30_encoding.md R86). -/

namespace Sys2Proof

/-- An instruction with its operand fields (30_encoding.md R82, R97). The docstring of each constructor gives the row's
pattern and the table's mnemonic. -/
inductive Instr where
  /-- 00E0 `CLS` -/
  | cls
  /-- 00EE `RET` -/
  | ret
  /-- 1NNN `JP` -/
  | jp (nnn : Addr12)
  /-- 2NNN `CALL` -/
  | call (nnn : Addr12)
  /-- 3XNN `SE.I` -/
  | seI (x : Nibble) (nn : Byte)
  /-- 4XNN `SNE.I` -/
  | sneI (x : Nibble) (nn : Byte)
  /-- 5XY0 `SE.R` -/
  | seR (x y : Nibble)
  /-- 6XNN `LD.I` -/
  | ldI (x : Nibble) (nn : Byte)
  /-- 7XNN `ADD.I` -/
  | addI (x : Nibble) (nn : Byte)
  /-- 8XY0 `LD.R` -/
  | ldR (x y : Nibble)
  /-- 8XY1 `OR` -/
  | or (x y : Nibble)
  /-- 8XY2 `AND` -/
  | and (x y : Nibble)
  /-- 8XY3 `XOR` -/
  | xor (x y : Nibble)
  /-- 8XY4 `ADD.R` -/
  | addR (x y : Nibble)
  /-- 8XY5 `SUB` -/
  | sub (x y : Nibble)
  /-- 8XY6 `SHR` -/
  | shr (x y : Nibble)
  /-- 8XY7 `SUBN` -/
  | subn (x y : Nibble)
  /-- 8XYE `SHL` -/
  | shl (x y : Nibble)
  /-- 9XY0 `SNE.R` -/
  | sneR (x y : Nibble)
  /-- ANNN `LD.IDX` -/
  | ldIdx (nnn : Addr12)
  /-- BNNN `JP.V0` -/
  | jpV0 (nnn : Addr12)
  /-- CXNN `RND` -/
  | rnd (x : Nibble) (nn : Byte)
  /-- DXYN `DRW` -/
  | drw (x y n : Nibble)
  /-- EX9E `SKP` -/
  | skp (x : Nibble)
  /-- EXA1 `SKNP` -/
  | sknp (x : Nibble)
  /-- FX07 `LD.VDT` -/
  | ldVdt (x : Nibble)
  /-- FX0A `WKR` -/
  | wkr (x : Nibble)
  /-- FX15 `LD.DTV` -/
  | ldDtv (x : Nibble)
  /-- FX18 `LD.STV` -/
  | ldStv (x : Nibble)
  /-- FX1E `ADD.IDX` -/
  | addIdx (x : Nibble)
  /-- FX29 `LD.F` -/
  | ldF (x : Nibble)
  /-- FX33 `LD.B` -/
  | ldB (x : Nibble)
  /-- FX55 `LD.ST` -/
  | ldSt (x : Nibble)
  /-- FX65 `LD.LD` -/
  | ldLd (x : Nibble)
  /-- `NOP.U`: a value that matches no other row (30_encoding.md R92); the operand is the value itself. -/
  | nopU (op : Word)
  deriving DecidableEq, Repr

end Sys2Proof
end

