-- ==== Sys2Proof/WellFormed.lean ====
section
/-! DEFINITION. Which instruction terms stand for a 16-bit value. Every field has exactly its encoding's width, so the one
thing a term can get wrong is to call a recognised value unrecognised. -/

namespace Sys2Proof

/-- Well-formed: the value a `NOP.U` carries matches no row of the opcode map (30_encoding.md R92); every value of every
other field is a legal operand (R85, R87). -/
def Instr.wellFormed : Instr → Bool
  | .nopU op => !Machine.recognised Machine.params.strictDecode op
  | .cls | .ret | .jp _ | .call _ | .seI _ _ | .sneI _ _ | .seR _ _ | .ldI _ _ | .addI _ _ | .ldR _ _ | .or _ _
  | .and _ _ | .xor _ _ | .addR _ _ | .sub _ _ | .shr _ _ | .subn _ _ | .shl _ _ | .sneR _ _ | .ldIdx _ | .jpV0 _
  | .rnd _ _ | .drw _ _ _ | .skp _ | .sknp _ | .ldVdt _ | .wkr _ | .ldDtv _ | .ldStv _ | .addIdx _ | .ldF _ | .ldB _
  | .ldSt _ | .ldLd _ => true

end Sys2Proof
end

