-- ==== Sys2Proof/Decode.lean ====
section
/-! DEFINITION. The decoder, written from the field and dispatch rules (30_encoding.md R82, R87 to R92), total on every
16-bit value; the reader of bytes, which refuses by name a list that is too short; and the encoder, written from the
formats (R83). -/

namespace Sys2Proof

/-! ## The six fields (30_encoding.md R82) -/

/-- `F` = op[15:12]. -/
def fieldF (op : Word) : Nibble := op.extractLsb' 12 4
/-- `X` = op[11:8]. -/
def fieldX (op : Word) : Nibble := op.extractLsb' 8 4
/-- `Y` = op[7:4]. -/
def fieldY (op : Word) : Nibble := op.extractLsb' 4 4
/-- `N` = op[3:0]. -/
def fieldN (op : Word) : Nibble := op.extractLsb' 0 4
/-- `NN` = op[7:0]. -/
def fieldNN (op : Word) : Byte := op.extractLsb' 0 8
/-- `NNN` = op[11:0]. -/
def fieldNNN (op : Word) : Addr12 := op.extractLsb' 0 12

/-! ## Dispatch (30_encoding.md R87 to R92) -/

/-- Family 0 (R88): the full value selects; when `STRICT_DECODE` is false, the low byte does (D11). -/
def decodeFamily0 (strict : Bool) (op : Word) : Instr :=
  if strict && fieldX op != 0 then .nopU op
  else match fieldNN op with
    | 0xE0 => .cls
    | 0xEE => .ret
    | _ => .nopU op

/-- Family 5 (R90): N must be 0; when `STRICT_DECODE` is false it is ignored (D11). -/
def decodeFamily5 (strict : Bool) (op : Word) : Instr :=
  if strict && fieldN op != 0 then .nopU op else .seR (fieldX op) (fieldY op)

/-- Family 8 (R89): the second level is on N. -/
def decodeFamily8 (op : Word) : Instr :=
  match fieldN op with
  | 0x0 => .ldR (fieldX op) (fieldY op)
  | 0x1 => .or (fieldX op) (fieldY op)
  | 0x2 => .and (fieldX op) (fieldY op)
  | 0x3 => .xor (fieldX op) (fieldY op)
  | 0x4 => .addR (fieldX op) (fieldY op)
  | 0x5 => .sub (fieldX op) (fieldY op)
  | 0x6 => .shr (fieldX op) (fieldY op)
  | 0x7 => .subn (fieldX op) (fieldY op)
  | 0xE => .shl (fieldX op) (fieldY op)
  | _ => .nopU op

/-- Family 9 (R90): as family 5. -/
def decodeFamily9 (strict : Bool) (op : Word) : Instr :=
  if strict && fieldN op != 0 then .nopU op else .sneR (fieldX op) (fieldY op)

/-- Family E (R91): the second level is on the whole low byte. -/
def decodeFamilyE (op : Word) : Instr :=
  match fieldNN op with
  | 0x9E => .skp (fieldX op)
  | 0xA1 => .sknp (fieldX op)
  | _ => .nopU op

/-- Family F (R91): the second level is on the whole low byte. -/
def decodeFamilyF (op : Word) : Instr :=
  match fieldNN op with
  | 0x07 => .ldVdt (fieldX op)
  | 0x0A => .wkr (fieldX op)
  | 0x15 => .ldDtv (fieldX op)
  | 0x18 => .ldStv (fieldX op)
  | 0x1E => .addIdx (fieldX op)
  | 0x29 => .ldF (fieldX op)
  | 0x33 => .ldB (fieldX op)
  | 0x55 => .ldSt (fieldX op)
  | 0x65 => .ldLd (fieldX op)
  | _ => .nopU op

/-- The first level: the value of `F`, 16 ways (R87). -/
def decodeWith (strict : Bool) (op : Word) : Instr :=
  match fieldF op with
  | 0x0 => decodeFamily0 strict op
  | 0x1 => .jp (fieldNNN op)
  | 0x2 => .call (fieldNNN op)
  | 0x3 => .seI (fieldX op) (fieldNN op)
  | 0x4 => .sneI (fieldX op) (fieldNN op)
  | 0x5 => decodeFamily5 strict op
  | 0x6 => .ldI (fieldX op) (fieldNN op)
  | 0x7 => .addI (fieldX op) (fieldNN op)
  | 0x8 => decodeFamily8 op
  | 0x9 => decodeFamily9 strict op
  | 0xA => .ldIdx (fieldNNN op)
  | 0xB => .jpV0 (fieldNNN op)
  | 0xC => .rnd (fieldX op) (fieldNN op)
  | 0xD => .drw (fieldX op) (fieldY op) (fieldN op)
  | 0xE => decodeFamilyE op
  | _ => decodeFamilyF op

/-- The instruction a 16-bit value stands for; an unrecognised value is a `NOP.U` (R92). -/
def decode (op : Word) : Instr := decodeWith Machine.params.strictDecode op

/-! ## Bytes -/

/-- Why a list of bytes holds no instruction. -/
inductive DecodeError where
  /-- Fewer than the two bytes every instruction has (R80). -/
  | truncated
  deriving DecidableEq, Repr

/-- The 16-bit value of two consecutive bytes, the one at the lower address first: big-endian (20_memory.md R54). -/
def wordOfBytes (hi lo : Byte) : Word := (hi ++ lo).cast rfl

/-- bits 15:8 of a value: the byte at the lower address (20_memory.md R54). -/
def highByte (w : Word) : Byte := w.extractLsb' 8 8

/-- bits 7:0 of a value: the byte at the higher address (20_memory.md R54). -/
def lowByte (w : Word) : Byte := w.extractLsb' 0 8

/-- The instruction at the head of a list of bytes and the bytes after it. -/
def decodeBytes : List Byte → Except DecodeError (Instr × List Byte)
  | hi :: lo :: rest => .ok (decode (wordOfBytes hi lo), rest)
  | _ => .error .truncated

/-- The 16-bit value of a row's bits numbered as spec/opcode_table.json numbers them: bit 0 is the least significant bit
of `op`; the bits the table gives no value are 0. -/
def tableWord (nbits w : Nat) : Word := BitVec.ofNat 16 (w % 2 ^ nbits)

/-- What the decoder reads from a row's bits, laid out in memory order. -/
def decodeTableWord (nbits w : Nat) : Option Instr :=
  match decodeBytes [highByte (tableWord nbits w), lowByte (tableWord nbits w)] with
  | .ok (i, _) => some i
  | .error _ => none

/-! ## The encoder (30_encoding.md R83, R86) -/

/-- Format A: `ffff nnnn nnnn nnnn`. -/
def formatA (f : Nibble) (nnn : Addr12) : Word := (f ++ nnn).cast rfl
/-- Formats XK and XS: `ffff xxxx kkkk kkkk`, `ffff xxxx ssss ssss`. -/
def formatXK (f x : Nibble) (nn : Byte) : Word := (f ++ x ++ nn).cast rfl
/-- Formats XY and XYN: `ffff xxxx yyyy ssss`, `1101 xxxx yyyy nnnn`. -/
def formatXY (f x y n : Nibble) : Word := (f ++ x ++ y ++ n).cast rfl

/-- The 16-bit value of an instruction (R86). -/
def encode : Instr → Word
  | .cls => 0x00E0
  | .ret => 0x00EE
  | .jp nnn => formatA 0x1 nnn
  | .call nnn => formatA 0x2 nnn
  | .seI x nn => formatXK 0x3 x nn
  | .sneI x nn => formatXK 0x4 x nn
  | .seR x y => formatXY 0x5 x y 0x0
  | .ldI x nn => formatXK 0x6 x nn
  | .addI x nn => formatXK 0x7 x nn
  | .ldR x y => formatXY 0x8 x y 0x0
  | .or x y => formatXY 0x8 x y 0x1
  | .and x y => formatXY 0x8 x y 0x2
  | .xor x y => formatXY 0x8 x y 0x3
  | .addR x y => formatXY 0x8 x y 0x4
  | .sub x y => formatXY 0x8 x y 0x5
  | .shr x y => formatXY 0x8 x y 0x6
  | .subn x y => formatXY 0x8 x y 0x7
  | .shl x y => formatXY 0x8 x y 0xE
  | .sneR x y => formatXY 0x9 x y 0x0
  | .ldIdx nnn => formatA 0xA nnn
  | .jpV0 nnn => formatA 0xB nnn
  | .rnd x nn => formatXK 0xC x nn
  | .drw x y n => formatXY 0xD x y n
  | .skp x => formatXK 0xE x 0x9E
  | .sknp x => formatXK 0xE x 0xA1
  | .ldVdt x => formatXK 0xF x 0x07
  | .wkr x => formatXK 0xF x 0x0A
  | .ldDtv x => formatXK 0xF x 0x15
  | .ldStv x => formatXK 0xF x 0x18
  | .addIdx x => formatXK 0xF x 0x1E
  | .ldF x => formatXK 0xF x 0x29
  | .ldB x => formatXK 0xF x 0x33
  | .ldSt x => formatXK 0xF x 0x55
  | .ldLd x => formatXK 0xF x 0x65
  | .nopU op => op

/-- The two bytes of an instruction in memory order (20_memory.md R54). -/
def encodeBytes (i : Instr) : List Byte := [highByte (encode i), lowByte (encode i)]

end Sys2Proof
end

