-- ==== Sys2Proof/Machine/State.lean ====
section
/-! DEFINITION. The machine's state as plain data (10_state.md section 1, R20 to R31), the ports and the model's own
host-side fields, the reasons a step can stop, and the state after reset (R36). -/

namespace Sys2Proof.Machine

/-- Memory as the bytes that differ from their reset contents, addresses strictly rising (R28). An address that is not
listed reads as its reset contents (Machine/Ops.lean: `resetByte`). -/
abbrev Memory := List Host.Cell

/-- The framebuffer: 32 rows, top row first; bit `x` of row `y` is the cell `FB[y][x]` (R29). -/
abbrev Framebuffer := Vector (BitVec fbW) fbH

/-- `CAUSE` (R31): which fatal error halted the machine. -/
inductive Cause where
  | none
  | stackOverflow
  | stackUnderflow
  | memOutOfBounds
  | fetchOutOfBounds
  | keyIndexRange
  deriving DecidableEq, Repr

/-- The levels the host puts on the input ports for one driver iteration (R34): `key_in`, `rnd_in`, and whether the tick
event falls on the boundary after the iteration's cycle. -/
structure PortLevels where
  keyIn : BitVec nKeys
  rndIn : Byte
  tick : Bool
  deriving DecidableEq, Repr

/-- What a `refresh` pulse presents to the host (R35, 60_exceptions.md R197). -/
structure Frame where
  fbOut : BitVec (fbW * fbH)
  buzzer : Bool
  deriving DecidableEq, Repr

/-- The host side of the machine: present port levels, and the model's own bookkeeping of the host's inputs. -/
structure HostSide where
  /-- Level of `key_in` in the present iteration (R34). -/
  keyIn : BitVec nKeys
  /-- Level of `rnd_in` in the present iteration (R34). -/
  rndIn : Byte
  /-- Whether a tick falls on the boundary after the present iteration's cycle (60_exceptions.md R194). -/
  tickIn : Bool
  /-- `load(image)` is still permitted (70_reset_and_hazards.md R204). -/
  loadOpen : Bool
  /-- What the last step's `refresh` pulse presented; none if it gave no pulse (R35). -/
  refresh : Option Frame
  /-- Port levels the host has fixed for the coming iterations, the next one first. -/
  pending : List PortLevels
  /-- How many iterations took free values for their port levels: the counter the free values are applied to. -/
  draws : Nat
  deriving DecidableEq, Repr

/-- Everything the spec gives the machine, and its host side. -/
structure State where
  /-- `x[0..15]`, the general registers; `x[15]` is the flag (R20, R21). -/
  x : Vector Byte nRegs
  /-- `pc` (R22). -/
  pc : BitVec pcWidth
  /-- `I`, the index register (R24). -/
  i : BitVec iWidth
  /-- `STK[0..15]`, the call stack (R25). -/
  stk : Vector (BitVec pcWidth) stackDepth
  /-- `SP`, the number of return addresses held, 0..16 (R26). -/
  sp : Fin (stackDepth + 1)
  /-- `DT`, the delay timer (R27). -/
  dt : Byte
  /-- `ST`, the sound timer (R27). -/
  st : Byte
  /-- `Mem` (R28). -/
  mem : Memory
  /-- `FB` (R29). -/
  fb : Framebuffer
  /-- `K[0..15]`, the current key sample; bit k is key k (R30). -/
  k : BitVec nKeys
  /-- `KP[0..15]`, the previous key sample (R30). -/
  kp : BitVec nKeys
  /-- `HALT` (R31). -/
  halt : Bool
  /-- `CAUSE` (R31). -/
  cause : Cause
  /-- `FPC` (R31). -/
  fpc : BitVec pcWidth
  /-- `FINFO` (R31). -/
  finfo : Info
  /-- The ports and the host's inputs (R34, R35). -/
  env : HostSide
  deriving DecidableEq, Repr

/-- Why a step answers no next state. -/
inductive Fault where
  /-- Raised by `step` alone, on a state with `HALT` = 1: no instruction cycle and no tick is enabled there and only reset
  leaves it (30_encoding.md R93, 60_exceptions.md R189). Safe: the state is kept and nothing more is claimed of it. -/
  | halted
  deriving DecidableEq, Repr

/-- Why the model gives no meaning. -/
inductive Refusal where
  /-- Raised by an arm of `exec` whose instruction has no meaning yet; no arm of this model does. Safe. -/
  | notModelled (mnemonic : String)
  /-- Raised by `hostLoad` alone, on a load after the first one or after the first cycle: the spec permits none there
  (70_reset_and_hazards.md R204). Safe. -/
  | loadNotPermitted
  deriving DecidableEq, Repr

/-- The host side right after reset. DESIGN CHOICE, log 22: port levels 0, no pulse, nothing fixed ahead, no draw yet.
The load is permitted (70_reset_and_hazards.md R204). -/
def HostSide.reset : HostSide where
  keyIn := 0
  rndIn := 0
  tickIn := false
  loadOpen := true
  refresh := .none
  pending := []
  draws := 0

/-- The machine right after `reset` (10_state.md R36, 70_reset_and_hazards.md R200, R201): memory at its reset contents
(nothing listed), `pc` at `RESET_PC` (D2, log 1), everything else 0. -/
def State.reset : State where
  x := Vector.replicate nRegs 0
  pc := params.resetPc
  i := 0
  stk := Vector.replicate stackDepth 0
  sp := 0
  dt := 0
  st := 0
  mem := []
  fb := Vector.replicate fbH 0
  k := 0
  kp := 0
  halt := false
  cause := .none
  fpc := 0
  finfo := 0
  env := HostSide.reset

end Sys2Proof.Machine
end

