-- ==== Sys2Proof/Machine/Ops.lean ====
section
/-! DEFINITION. The named operations over memory, registers, call stack and framebuffer, the entry into a fatal error, and
the phases of the instruction cycle before the meaning: port levels, sampling, fetch, advance. -/

namespace Sys2Proof.Machine

/-- The answer of a meaning or a step. -/
abbrev Result := Host.Outcome State Fault Refusal

/-! ## Memory (20_memory.md R50 to R61) -/

/-- The reset contents of an address: the glyph table at `FONT_BASE`, 0 elsewhere (10_state.md R36, 20_memory.md R51, R53).
This is what an unlisted address reads as. -/
def resetByte (a : Nat) : Byte :=
  if fontBase ≤ a ∧ a < fontBase + fontLen then
    (params.font[(a - fontBase) / glyphStride]?.bind (·[(a - fontBase) % glyphStride]?)).getD 0
  else 0

/-- The byte at an address (R61). -/
def Memory.read : Memory → Nat → Byte
  | [], a => resetByte a
  | (b, v) :: m, a => if a = b then v else Memory.read m a

/-- Takes an address out of the list, so that it reads as its reset contents. -/
def Memory.erase : Memory → Nat → Memory
  | [], _ => []
  | (b, w) :: m, a => if a = b then Memory.erase m a else (b, w) :: Memory.erase m a

/-- Lists an address with a byte, keeping the addresses rising. -/
def Memory.insert : Memory → Nat → Byte → Memory
  | [], a, v => [(a, v)]
  | (b, w) :: m, a, v =>
    if a < b then (a, v) :: (b, w) :: m else if a = b then (a, v) :: m else (b, w) :: Memory.insert m a v

/-- Writes a byte (R61), keeping the canonical form; there is no cell above 0xFFF, so a write there changes nothing (the
meanings raise `MemOutOfBounds` before they would write there). -/
def Memory.write (m : Memory) (a : Nat) (v : Byte) : Memory :=
  if addrMax < a then m else if v = resetByte a then m.erase a else m.insert a v

/-- Every address is at least `lo`, addresses rise strictly, each is a cell of memory, and no entry is its reset
contents. -/
def Memory.wfFrom : Nat → Memory → Bool
  | _, [] => true
  | lo, (a, v) :: m => decide (lo ≤ a) && decide (a ≤ addrMax) && (v != resetByte a) && Memory.wfFrom (a + 1) m

/-- The canonical form: equal memories are equal lists. -/
def Memory.wf (m : Memory) : Bool := m.wfFrom 0

/-- Whether using an address is an error under a policy (R61, D4, D5). -/
def outOfBounds (p : AddrPolicy) (a : Nat) : Bool :=
  match p with
  | .fault => decide (addrMax < a)
  | .wrap => false

/-- The cell an address stands for under a policy: itself, or itself modulo 4096 (D4, D5). -/
def cellOf (p : AddrPolicy) (a : Nat) : Nat :=
  match p with
  | .fault => a
  | .wrap => a % memSize

/-- The lowest address among `base`, …, `base + n - 1` whose use is an error (R66). -/
def lowestInvalid (p : AddrPolicy) (base n : Nat) : Option Nat := (List.range' base n).find? (outOfBounds p)

/-- The bytes at `base`, …, `base + n - 1`, ascending (R58). -/
def readSeq (p : AddrPolicy) (m : Memory) (base n : Nat) : List Byte :=
  (List.range' base n).map fun a => m.read (cellOf p a)

/-- Writes the bytes at `base`, `base + 1`, …, ascending (R58). -/
def writeSeq (p : AddrPolicy) : Memory → Nat → List Byte → Memory
  | m, _, [] => m
  | m, base, v :: vs => writeSeq p (m.write (cellOf p base) v) (base + 1) vs

/-! ## Registers (10_state.md R20, R21) -/

/-- `x[r]`. -/
def State.reg (s : State) (r : Nibble) : Byte := s.x[r.toNat]'r.isLt

/-- `x[r] <- v`. -/
def State.setReg (s : State) (r : Nibble) (v : Byte) : State := { s with x := s.x.set r.toNat v r.isLt }

/-- `x[15] <- flag`, 0 or 1 (R21). -/
def State.setFlag (s : State) (f : Bool) : State := s.setReg flagReg (if f then 1 else 0)

/-- The result first, the flag last, as the flag-writing instructions do (42_alu.md R144). -/
def State.setResultAndFlag (s : State) (r : Nibble) (v : Byte) (f : Bool) : State := (s.setReg r v).setFlag f

/-- `x[0]`, …, `x[n - 1]`. -/
def State.firstRegs (s : State) (n : Nat) : List Byte := s.x.toList.take n

/-- Writes `x[j]`, `x[j + 1]`, … with the bytes of a list, ascending. -/
def fillRegs : Vector Byte nRegs → Nat → List Byte → Vector Byte nRegs
  | x, _, [] => x
  | x, j, v :: vs => fillRegs (x.setIfInBounds j v) (j + 1) vs

/-! ## Control flow (10_state.md R22, R23, R25, R26) -/

/-- The address one instruction further on: `pc + 2` (10_state.md R22, R23). -/
def nextInsn (pc : BitVec pcWidth) : BitVec pcWidth := pc + BitVec.ofNat pcWidth insnBytes

/-- The address one instruction back: `pc - 2` (45_timers_input.md R175; log 21, 28). -/
def prevInsn (pc : BitVec pcWidth) : BitVec pcWidth := pc - BitVec.ofNat pcWidth insnBytes

/-- Adds 2 to `pc` if the condition holds (41_skips.md R124). -/
def State.skipIf (s : State) (c : Bool) : State := { s with pc := if c then nextInsn s.pc else s.pc }

/-- Pushes a return address: the slot at `SP` is written, then `SP` rises; none when 16 are held (40_control_flow.md
R112). -/
def State.push (s : State) (v : BitVec pcWidth) : Option State :=
  if h : s.sp.val < stackDepth then
    some { s with stk := s.stk.set s.sp.val v h, sp := ⟨s.sp.val + 1, Nat.succ_lt_succ h⟩ }
  else none

/-- The return address on top of the call stack and the state with `SP` lowered, the slot kept; none when the stack is
empty (40_control_flow.md R110). -/
def State.pop (s : State) : Option (BitVec pcWidth × State) :=
  if h : s.sp.val = 0 then none
  else
    have hj : s.sp.val - 1 < stackDepth := by have := s.sp.isLt; omega
    some (s.stk[s.sp.val - 1], { s with sp := ⟨s.sp.val - 1, Nat.lt_succ_of_lt hj⟩ })

/-! ## Taking a fatal error (60_exceptions.md R188) -/

/-- `raise E(info)` with the address it records in `FPC`: the fault record is written and nothing else. There is no return
from it (R189). -/
def raise (e : Cause) (fpc : BitVec pcWidth) (info : Info) (s : State) : State :=
  { s with cause := e, fpc := fpc, finfo := info, halt := true }

/-- `raise` in the execute phase, where `pc` is already the instruction's address plus 2 (10_state.md R22; DEDUCED,
log 21). -/
def raiseExec (e : Cause) (info : Info) (s : State) : State := raise e (prevInsn s.pc) info s

/-! ## Framebuffer (44_display.md R160 to R162) -/

/-- `FB[y][x]`; there is no cell outside the grid. -/
def cell (fb : Framebuffer) (y x : Nat) : Bool := (fb[y]?.getD 0).getLsbD x

/-- `FB[y][x] <- FB[y][x] xor 1`. -/
def flipCell (fb : Framebuffer) (y x : Nat) : Framebuffer :=
  if h : y < fbH then fb.set y (fb[y] ^^^ BitVec.twoPow fbW x) h else fb

/-- The framebuffer with all 2048 cells 0. -/
def clearFb : Framebuffer := Vector.replicate fbH 0

/-- One pixel of a sprite row at row `y` (R161): column `c` of byte `b` is bit `7 - c`; a column above 63 is clipped; a
set bit flips its cell and records a collision if the cell was set. -/
def drawPixel (y x0 : Nat) (b : Byte) (acc : Framebuffer × Bool) (c : Nat) : Framebuffer × Bool :=
  if x0 + c < fbW ∧ b.getLsbD (7 - c) = true then
    (flipCell acc.1 y (x0 + c), acc.2 || cell acc.1 y (x0 + c))
  else acc

/-- One sprite row: its eight pixels, column offset 0 first (R161). -/
def drawRow (y x0 : Nat) (b : Byte) (acc : Framebuffer × Bool) : Framebuffer × Bool :=
  (List.range 8).foldl (drawPixel y x0 b) acc

/-- The sprite's rows from row `y` down (R161), with the collision so far. -/
def drawRows (x0 : Nat) : Nat → List Byte → Framebuffer × Bool → Framebuffer × Bool
  | _, [], acc => acc
  | y, b :: bs, acc => drawRows x0 (y + 1) bs (drawRow y x0 b acc)

/-- `fb_out`: bit `y * 64 + x` is `FB[y][x]` (10_state.md R35). -/
def fbOut (fb : Framebuffer) : BitVec (fbW * fbH) :=
  BitVec.ofFnLE fun j : Fin (fbW * fbH) => cell fb (j.val / fbW) (j.val % fbW)

/-! ## The phases of a cycle before the meaning (30_encoding.md R93) -/

/-- The port levels of the coming iteration: those the host has fixed, or else free values (log 11, 15, 16). -/
def HostSide.nextLevels (e : HostSide) : PortLevels :=
  match e.pending with
  | l :: _ => l
  | [] => ⟨Config.freeKeyIn e.draws, Config.freeRndIn e.draws, Config.freeTick e.draws⟩

/-- The host puts the levels of the coming iteration on the input ports; the `refresh` output is not pulsed. -/
def HostSide.drive (e : HostSide) : HostSide :=
  { e with
    keyIn := e.nextLevels.keyIn
    rndIn := e.nextLevels.rndIn
    tickIn := e.nextLevels.tick
    refresh := none
    pending := e.pending.tail
    draws := if e.pending.isEmpty then e.draws + 1 else e.draws }

/-- The host's part at the start of an iteration. -/
def drivePorts (s : State) : State := { s with env := s.env.drive }

/-- Phase 0 (R93, D12): `KP <- K ; K <- key_in`, all 16 lines. From the first cycle on, no load is permitted
(70_reset_and_hazards.md R204). -/
def sample (s : State) : State :=
  { s with kp := s.k, k := s.env.keyIn, env := { s.env with loadOpen := false } }

/-- The addresses of the two bytes a fetch at `pc` reads (R81): none when one of them is outside memory. Under the
`wrap` policy both are taken modulo 4096 (D5). -/
def fetchCells (p : AddrPolicy) (pc : BitVec pcWidth) : Option (Nat × Nat) :=
  match p with
  | .fault => if pc.toNat + 1 ≤ addrMax then some (pc.toNat, pc.toNat + 1) else none
  | .wrap => some (cellOf .wrap pc.toNat, cellOf .wrap (pc.toNat + 1))

/-- Phase 1 (R81): the two bytes at `pc`, most significant first; none when the fetch is out of bounds. -/
def fetch (s : State) : Option Word :=
  match fetchCells params.addrPolicy s.pc with
  | some (a, b) => some (wordOfBytes (s.mem.read a) (s.mem.read b))
  | none => none

/-- Phase 2 (R93): `pc <- a + 2`. -/
def advance (s : State) : State := { s with pc := nextInsn s.pc }

/-- The halt on a failed fetch (R81, 60_exceptions.md R184): `FPC` = `FINFO` = `pc`, which is not advanced. -/
def raiseFetch (s : State) : State := raise .fetchOutOfBounds s.pc (s.pc.setWidth 17) s

end Sys2Proof.Machine
end

