-- ==== Sys2Proof/Machine/Flags.lean ====
section
/-! DEFINITION. Every flag computation of the spec (42_alu.md R136 to R140, 43_index_memory.md R151, 44_display.md R161
writes the collision of Machine/Ops.lean's `drawRows`). Each is computed from the unreduced operands (42_alu.md R143). -/

namespace Sys2Proof.Machine

/-- 8XY4: the unreduced sum is above 255 (R136). -/
def carryFlag (a b : Byte) : Bool := decide (255 < a.toNat + b.toNat)

/-- `subflag(m, s)` of 8XY5 and 8XY7 for a minuend and a subtrahend (R137; D6, log 4). -/
def subtractFlag (p : SubFlag) (minuend subtrahend : Byte) : Bool :=
  match p with
  | .notBorrowGe => decide (subtrahend.toNat ≤ minuend.toNat)
  | .notBorrowGt => decide (subtrahend.toNat < minuend.toNat)
  | .borrow => decide (minuend.toNat < subtrahend.toNat)

/-- 8XY6: bit 0, the bit shifted out (R138). -/
def shrFlag (v : Byte) : Bool := v.getLsbD 0

/-- 8XYE: bit 7, the bit shifted out (R140). -/
def shlFlag (v : Byte) : Bool := v.getLsbD 7

/-- FX1E under `ADDI_SETS_VF` = true: the unreduced sum is above 0x0FFF (43_index_memory.md R151; D9, log 7). -/
def indexFlag (i : BitVec iWidth) (v : Byte) : Bool := decide (addrMax < i.toNat + v.toNat)

end Sys2Proof.Machine
end

