-- ==== Sys2Proof/Machine/Operands.lean ====
section
/-! DEFINITION. Every operand form of the spec: the source of a shift, the key index, the running address at `I`, the
sprite's origin and rows, the glyph address, the decimal digits. -/

namespace Sys2Proof.Machine

/-- The source register of 8XY6 and 8XYE (42_alu.md R138; D7, log 5). -/
def shiftSource (p : ShiftSrc) (x y : Nibble) : Nibble :=
  match p with
  | .vx => x
  | .vy => y

/-- The key line a register value selects; none when it is an error (45_timers_input.md R176; D10, log 8). -/
def keyLine (p : KeyIndexPolicy) (v : Byte) : Option Nat :=
  match p with
  | .fault => if v.toNat < nKeys then some v.toNat else none
  | .mask4 => some (v &&& 0x0F).toNat

/-- `k = keyindex(x[X])` and then the rest of the instruction; `KeyIndexRange(x[X])` when there is no such line
(45_timers_input.md R176, 60_exceptions.md R185). -/
def withKey (x : Nibble) (s : State) (rest : Nat → State) : State :=
  match keyLine params.keyIndexPolicy (s.reg x) with
  | some k => rest k
  | none => raiseExec .keyIndexRange ((s.reg x).setWidth 17) s

/-- The rest of an instruction that uses the `n` addresses `I`, `I + 1`, …, unless one of them is invalid:
`MemOutOfBounds` with the lowest such address, before any effect (20_memory.md R61, R66, 60_exceptions.md R183). -/
def withMemory (n : Nat) (s : State) (rest : State) : State :=
  match lowestInvalid params.addrPolicy s.i.toNat n with
  | some a => raiseExec .memOutOfBounds (BitVec.ofNat 17 a) s
  | none => rest

/-- `I` after FX55 and FX65 (43_index_memory.md R156; D8, log 6). DESIGN CHOICE, log 27: the spec writes the increment of the
alternative without a reduction; here it is reduced modulo 65536. -/
def indexAfterCopy (increments : Bool) (i : BitVec iWidth) (n : Nat) : BitVec iWidth :=
  if increments then i + BitVec.ofNat iWidth n else i

/-- The address of glyph `v`, the whole byte used (43_index_memory.md R152; D19, log 18). -/
def glyphAddr (v : Byte) : BitVec iWidth := BitVec.ofNat iWidth (fontBase + glyphStride * v.toNat)

/-- Hundreds, tens and ones of a byte (43_index_memory.md R153). -/
def decimalDigits (v : Byte) : List Byte :=
  [BitVec.ofNat 8 (v.toNat / 100), BitVec.ofNat 8 (v.toNat / 10 % 10), BitVec.ofNat 8 (v.toNat % 10)]

/-- `x0` = `x[X]` mod 64, the sprite's first column (44_display.md R161). -/
def originX (v : Byte) : Nat := v.toNat % fbW

/-- `y0` = `x[Y]` mod 32, the sprite's first row (44_display.md R161). -/
def originY (v : Byte) : Nat := v.toNat % fbH

/-- The rows that are drawn: min(N, 32 − `y0`) (44_display.md R161; D15, log 13). -/
def spriteRows (n : Nibble) (y0 : Nat) : Nat := min n.toNat (fbH - y0)

end Sys2Proof.Machine
end

