-- ==== Sys2Proof/Machine/Alu.lean ====
section
/-! DEFINITION. Load, arithmetic, logic, shift and random instructions (42_alu.md). -/

namespace Sys2Proof.Machine

/-- 6XNN `LD.I` (R130). -/
def execLdI (x : Nibble) (nn : Byte) (s : State) : Result := .next (s.setReg x nn)

/-- 7XNN `ADD.I` (R131): wraps modulo 256, no flag. -/
def execAddI (x : Nibble) (nn : Byte) (s : State) : Result := .next (s.setReg x (s.reg x + nn))

/-- 8XY0 `LD.R` (R132). -/
def execLdR (x y : Nibble) (s : State) : Result := .next (s.setReg x (s.reg y))

/-- 8XY1 `OR` (R133). -/
def execOr (x y : Nibble) (s : State) : Result := .next (s.setReg x (s.reg x ||| s.reg y))

/-- 8XY2 `AND` (R134). -/
def execAnd (x y : Nibble) (s : State) : Result := .next (s.setReg x (s.reg x &&& s.reg y))

/-- 8XY3 `XOR` (R135). -/
def execXor (x y : Nibble) (s : State) : Result := .next (s.setReg x (s.reg x ^^^ s.reg y))

/-- 8XY4 `ADD.R` (R136, R144). -/
def execAddR (x y : Nibble) (s : State) : Result :=
  .next (s.setResultAndFlag x (s.reg x + s.reg y) (carryFlag (s.reg x) (s.reg y)))

/-- 8XY5 `SUB` (R137, R144). -/
def execSub (x y : Nibble) (s : State) : Result :=
  .next (s.setResultAndFlag x (s.reg x - s.reg y) (subtractFlag params.subFlag (s.reg x) (s.reg y)))

/-- 8XY6 `SHR` (R138, R144). -/
def execShr (x y : Nibble) (s : State) : Result :=
  .next (s.setResultAndFlag x (s.reg (shiftSource params.shiftSrc x y) >>> 1)
    (shrFlag (s.reg (shiftSource params.shiftSrc x y))))

/-- 8XY7 `SUBN` (R139, R144). -/
def execSubn (x y : Nibble) (s : State) : Result :=
  .next (s.setResultAndFlag x (s.reg y - s.reg x) (subtractFlag params.subFlag (s.reg y) (s.reg x)))

/-- 8XYE `SHL` (R140, R144). -/
def execShl (x y : Nibble) (s : State) : Result :=
  .next (s.setResultAndFlag x (s.reg (shiftSource params.shiftSrc x y) <<< 1)
    (shlFlag (s.reg (shiftSource params.shiftSrc x y))))

/-- CXNN `RND` (R141): the draw is the level of `rnd_in` in this cycle. -/
def execRnd (x : Nibble) (nn : Byte) (s : State) : Result := .next (s.setReg x (s.env.rndIn &&& nn))

end Sys2Proof.Machine
end

