-- ==== Sys2Proof/Machine/ControlFlow.lean ====
section
/-! DEFINITION. RET, JP, CALL, JP.V0 and NOP.U (40_control_flow.md). On entry `pc` is the instruction's address plus 2. -/

namespace Sys2Proof.Machine

/-- 00EE `RET` (R110; `StackUnderflow`: 60_exceptions.md R182). -/
def execRet (s : State) : Result :=
  match s.pop with
  | some (target, s') => .next { s' with pc := target }
  | none => .next (raiseExec .stackUnderflow 0 s)

/-- 1NNN `JP` (R111). -/
def execJp (nnn : Addr12) (s : State) : Result := .next { s with pc := nnn.setWidth pcWidth }

/-- 2NNN `CALL` (R112; `StackOverflow`: 60_exceptions.md R181). -/
def execCall (nnn : Addr12) (s : State) : Result :=
  match s.push s.pc with
  | some s' => .next { s' with pc := nnn.setWidth pcWidth }
  | none => .next (raiseExec .stackOverflow (BitVec.ofNat 17 stackDepth) s)

/-- BNNN `JP.V0` (R113): the sum needs no reduction in 16 bits. -/
def execJpV0 (nnn : Addr12) (s : State) : Result :=
  .next { s with pc := nnn.setWidth pcWidth + (s.reg 0).setWidth pcWidth }

/-- `NOP.U` (R114): nothing. -/
def execNopU (_op : Word) (s : State) : Result := .next s

end Sys2Proof.Machine
end

