-- ==== Sys2Proof/Machine/Display.lean ====
section
/-! DEFINITION. The two instructions that change the framebuffer (44_display.md). -/

namespace Sys2Proof.Machine

/-- 00E0 `CLS` (R160). -/
def execCls (s : State) : Result := .next { s with fb := clearFb }

/-- What DXYN draws: the framebuffer afterwards and the collision (R161). -/
def spriteDrawn (x y n : Nibble) (s : State) : Framebuffer × Bool :=
  drawRows (originX (s.reg x)) (originY (s.reg y))
    (readSeq params.addrPolicy s.mem s.i.toNat (spriteRows n (originY (s.reg y)))) (s.fb, false)

/-- DXYN `DRW` (R161): the check of the rows that are drawn, then the sprite, then the flag. -/
def execDrw (x y n : Nibble) (s : State) : Result :=
  .next (withMemory (spriteRows n (originY (s.reg y))) s
    ({ s with fb := (spriteDrawn x y n s).1 }.setFlag (spriteDrawn x y n s).2))

end Sys2Proof.Machine
end

