-- ==== Sys2Proof/Machine/IndexMemory.lean ====
section
/-! DEFINITION. The index register and the instructions that move bytes between registers and memory
(43_index_memory.md). -/

namespace Sys2Proof.Machine

/-- ANNN `LD.IDX` (R150). -/
def execLdIdx (nnn : Addr12) (s : State) : Result := .next { s with i := nnn.setWidth iWidth }

/-- FX1E `ADD.IDX` (R151): wraps modulo 65536; the flag is written only under `ADDI_SETS_VF` (D9, log 7). -/
def execAddIdx (x : Nibble) (s : State) : Result :=
  if params.addISetsVf then
    .next ({ s with i := s.i + (s.reg x).setWidth iWidth }.setFlag (indexFlag s.i (s.reg x)))
  else .next { s with i := s.i + (s.reg x).setWidth iWidth }

/-- FX29 `LD.F` (R152). -/
def execLdF (x : Nibble) (s : State) : Result := .next { s with i := glyphAddr (s.reg x) }

/-- FX33 `LD.B` (R153). -/
def execLdB (x : Nibble) (s : State) : Result :=
  .next (withMemory 3 s
    { s with mem := writeSeq params.addrPolicy s.mem s.i.toNat (decimalDigits (s.reg x)) })

/-- FX55 `LD.ST` (R154): stores `x[0]`, …, `x[X]`. -/
def execLdSt (x : Nibble) (s : State) : Result :=
  .next (withMemory (x.toNat + 1) s
    { s with
      mem := writeSeq params.addrPolicy s.mem s.i.toNat (s.firstRegs (x.toNat + 1))
      i := indexAfterCopy params.ldstIncrementsI s.i (x.toNat + 1) })

/-- FX65 `LD.LD` (R155): loads `x[0]`, …, `x[X]`. -/
def execLdLd (x : Nibble) (s : State) : Result :=
  .next (withMemory (x.toNat + 1) s
    { s with
      x := fillRegs s.x 0 (readSeq params.addrPolicy s.mem s.i.toNat (x.toNat + 1))
      i := indexAfterCopy params.ldstIncrementsI s.i (x.toNat + 1) })

end Sys2Proof.Machine
end

