-- ==== Sys2Proof/Machine/Skips.lean ====
section
/-! DEFINITION. The four skips on registers (41_skips.md). -/

namespace Sys2Proof.Machine

/-- 3XNN `SE.I` (R120). -/
def execSeI (x : Nibble) (nn : Byte) (s : State) : Result := .next (s.skipIf (s.reg x == nn))

/-- 4XNN `SNE.I` (R121). -/
def execSneI (x : Nibble) (nn : Byte) (s : State) : Result := .next (s.skipIf (s.reg x != nn))

/-- 5XY0 `SE.R` (R122). -/
def execSeR (x y : Nibble) (s : State) : Result := .next (s.skipIf (s.reg x == s.reg y))

/-- 9XY0 `SNE.R` (R123). -/
def execSneR (x y : Nibble) (s : State) : Result := .next (s.skipIf (s.reg x != s.reg y))

end Sys2Proof.Machine
end

