-- ==== Sys2Proof/Machine/TimersInput.lean ====
section
/-! DEFINITION. Timer and keypad instructions (45_timers_input.md). The key samples are those of the present cycle. -/

namespace Sys2Proof.Machine

/-- FX07 `LD.VDT` (R170). -/
def execLdVdt (x : Nibble) (s : State) : Result := .next (s.setReg x s.dt)

/-- FX15 `LD.DTV` (R171). -/
def execLdDtv (x : Nibble) (s : State) : Result := .next { s with dt := s.reg x }

/-- FX18 `LD.STV` (R172). -/
def execLdStv (x : Nibble) (s : State) : Result := .next { s with st := s.reg x }

/-- EX9E `SKP` (R173). -/
def execSkp (x : Nibble) (s : State) : Result := .next (withKey x s fun k => s.skipIf (s.k.getLsbD k))

/-- EXA1 `SKNP` (R174). -/
def execSknp (x : Nibble) (s : State) : Result := .next (withKey x s fun k => s.skipIf (!s.k.getLsbD k))

/-- FX0A `WKR` (R175): past the instruction on the release edge of its key, back to its own address otherwise. -/
def execWkr (x : Nibble) (s : State) : Result :=
  .next (withKey x s fun k => { s with pc := if s.kp.getLsbD k && !s.k.getLsbD k then s.pc else prevInsn s.pc })

end Sys2Proof.Machine
end

