-- ==== Sys2Proof/Machine/Dispatch.lean ====
section
/-! DEFINITION. From an instruction to its meaning (30_encoding.md R93, phase 4). -/

namespace Sys2Proof.Machine

def exec (i : Instr) (s : State) : Host.Outcome State Fault Refusal :=
  match i with
  | .cls => Sys2Proof.Machine.execCls s
  | .ret => Sys2Proof.Machine.execRet s
  | .jp nnn => Sys2Proof.Machine.execJp nnn s
  | .call nnn => Sys2Proof.Machine.execCall nnn s
  | .seI x nn => Sys2Proof.Machine.execSeI x nn s
  | .sneI x nn => Sys2Proof.Machine.execSneI x nn s
  | .seR x y => Sys2Proof.Machine.execSeR x y s
  | .ldI x nn => Sys2Proof.Machine.execLdI x nn s
  | .addI x nn => Sys2Proof.Machine.execAddI x nn s
  | .ldR x y => Sys2Proof.Machine.execLdR x y s
  | .or x y => Sys2Proof.Machine.execOr x y s
  | .and x y => Sys2Proof.Machine.execAnd x y s
  | .xor x y => Sys2Proof.Machine.execXor x y s
  | .addR x y => Sys2Proof.Machine.execAddR x y s
  | .sub x y => Sys2Proof.Machine.execSub x y s
  | .shr x y => Sys2Proof.Machine.execShr x y s
  | .subn x y => Sys2Proof.Machine.execSubn x y s
  | .shl x y => Sys2Proof.Machine.execShl x y s
  | .sneR x y => Sys2Proof.Machine.execSneR x y s
  | .ldIdx nnn => Sys2Proof.Machine.execLdIdx nnn s
  | .jpV0 nnn => Sys2Proof.Machine.execJpV0 nnn s
  | .rnd x nn => Sys2Proof.Machine.execRnd x nn s
  | .drw x y n => Sys2Proof.Machine.execDrw x y n s
  | .skp x => Sys2Proof.Machine.execSkp x s
  | .sknp x => Sys2Proof.Machine.execSknp x s
  | .ldVdt x => Sys2Proof.Machine.execLdVdt x s
  | .wkr x => Sys2Proof.Machine.execWkr x s
  | .ldDtv x => Sys2Proof.Machine.execLdDtv x s
  | .ldStv x => Sys2Proof.Machine.execLdStv x s
  | .addIdx x => Sys2Proof.Machine.execAddIdx x s
  | .ldF x => Sys2Proof.Machine.execLdF x s
  | .ldB x => Sys2Proof.Machine.execLdB x s
  | .ldSt x => Sys2Proof.Machine.execLdSt x s
  | .ldLd x => Sys2Proof.Machine.execLdLd x s
  | .nopU op => Sys2Proof.Machine.execNopU op s

end Sys2Proof.Machine
end

