-- ==== Sys2Proof/Machine/Ports.lean ====
section
/-! DEFINITION. The tick (60_exceptions.md R193), the output ports (10_state.md R35) and the host's own actions, reset and
load (10_state.md R34, 70_reset_and_hazards.md R204). -/

namespace Sys2Proof.Machine

/-! ## Output ports (10_state.md R35) -/

/-- `buzzer`: 1 exactly when `ST` ≠ 0 (D18, log 17). -/
def buzzer (s : State) : Bool := s.st != 0

/-- `cause_out`: the number of a cause (10_state.md R31). -/
def causeCode : Cause → BitVec 3
  | .none => 0
  | .stackOverflow => 1
  | .stackUnderflow => 2
  | .memOutOfBounds => 3
  | .fetchOutOfBounds => 4
  | .keyIndexRange => 5

/-- What a `refresh` pulse in this state presents: `fb_out` and `buzzer` (60_exceptions.md R197). -/
def frameOut (s : State) : Frame := ⟨fbOut s.fb, buzzer s⟩

/-- The output ports that carry the fault record: `halt_out`, `cause_out`, `fpc_out`, `finfo_out`. -/
structure Diagnostic where
  haltOut : Bool
  causeOut : BitVec 3
  fpcOut : BitVec pcWidth
  finfoOut : Info
  deriving DecidableEq, Repr

/-- The diagnostic of a state. -/
def diagnostic (s : State) : Diagnostic := ⟨s.halt, causeCode s.cause, s.fpc, s.finfo⟩

/-! ## The tick -/

/-- One count of a timer, floor at 0 (60_exceptions.md R193). -/
def countDown (v : Byte) : Byte := if v = 0 then 0 else v - 1

/-- The boundary after a cycle, with the tick event or without it: `refresh` is pulsed with the values before the
decrement, then both timers count down (60_exceptions.md R193). Written field by field, so that what the tick does not
touch can be read off whatever the event. -/
def tickWhen (b : Bool) (s : State) : State :=
  { s with
    dt := if b then countDown s.dt else s.dt
    st := if b then countDown s.st else s.st
    env := { s.env with refresh := if b then some (frameOut s) else s.env.refresh } }

/-- `Tick()` on a machine that is not halted (60_exceptions.md R193). -/
def tick (s : State) : State := tickWhen true s

/-- The boundary between two cycles: at most one tick, and none once `HALT` = 1 (60_exceptions.md R189, R194). -/
def boundary (s : State) : State := if s.halt then s else tickWhen s.env.tickIn s

/-- The boundary after a cycle that answered. -/
def atBoundary : Result → Result
  | .next s => .next (boundary s)
  | .fault f => .fault f
  | .refused r => .refused r

/-! ## The host's actions -/

/-- The input port `reset`: every piece of the machine's state to its reset value (70_reset_and_hazards.md R200). What the
host has fixed for its input ports stays the host's. -/
def hostReset (s : State) : State :=
  { State.reset with env := { HostSide.reset with pending := s.env.pending, draws := s.env.draws } }

/-- The input port `load(image)`: the first 3584 bytes go to 0x200 upwards; permitted once, between reset and the first
cycle (70_reset_and_hazards.md R204). -/
def hostLoad (image : List Byte) (s : State) : Result :=
  if s.env.loadOpen then
    .next { s with
      mem := writeSeq .fault s.mem progBase (image.take progMaxLen)
      env := { s.env with loadOpen := false } }
  else .refused .loadNotPermitted

/-- The host fixes the levels of its input ports for the coming iterations; it may do so at any time (10_state.md R34). -/
def hostDrive (levels : List PortLevels) (s : State) : State := { s with env := { s.env with pending := levels } }

end Sys2Proof.Machine
end

