-- ==== Sys2Proof/Machine/Step.lean ====
section
/-! DEFINITION. One step: a driver iteration (00_scope.md R11), that is one instruction cycle (30_encoding.md R93) and then
at most one tick (60_exceptions.md R194). -/

namespace Sys2Proof.Machine

/-- The instruction cycle (30_encoding.md R93) on ports that carry their levels: sample, fetch, advance, decode,
execute. -/
def cycle (s : State) : Result :=
  match fetch (sample s) with
  | none => .next (raiseFetch (sample s))
  | some op => exec (decode op) (advance (sample s))

/-- One driver iteration; a halted machine has none (30_encoding.md R93, 60_exceptions.md R189). -/
def step (s : State) : Host.Outcome State Fault Refusal :=
  if s.halt then .fault .halted else atBoundary (cycle (drivePorts s))

/-- The state with an instruction's two bytes stored where the next step fetches. What else the fetch needs is set only
where it is missing: the machine runs (`HALT` = 0), and `pc` lies where a fetch succeeds. -/
def State.withFetchWord (s : State) (nbits w : Nat) : State :=
  match fetchCells params.addrPolicy s.pc with
  | some (a, b) =>
    { s with
      mem := (s.mem.write a (highByte (tableWord nbits w))).write b (lowByte (tableWord nbits w)), halt := false }
  | none =>
    { s with
      mem := (s.mem.write progBase (highByte (tableWord nbits w))).write (progBase + 1) (lowByte (tableWord nbits w))
      pc := BitVec.ofNat pcWidth progBase, halt := false }

end Sys2Proof.Machine
end

