-- ==== Sys2Proof/Safety.lean ====
section
/-! DEFINITION. What counts as a safe state and a safe run, and the words the claims are stated in. -/

namespace Sys2Proof

open Machine

/-! ## Safe states and reachable states -/

/-- The machine runs: no fatal error has happened (10_state.md R31). A halted state is never a successful end of a run
(60_exceptions.md R189). -/
def Running (s : State) : Prop := s.halt = false

/-- The end of a run, as the spec recommends to define it (70_reset_and_hazards.md R212, D20; DESIGN CHOICE, log 29): the
machine runs and its next instruction is a jump to the instruction's own address. -/
def Ended (s : State) : Prop :=
  Running s ∧ ∃ op : Word, fetch s = some op ∧ ∃ nnn : Addr12, decode op = .jp nnn ∧ s.pc.toNat = nnn.toNat

/-- What holds in every reachable state (10_state.md R38) beyond what the types of the fields say. -/
structure Inv (s : State) : Prop where
  /-- Memory is in canonical form, every listed cell inside 0x000..0xFFF. -/
  memCanonical : s.mem.wf = true
  /-- A stack slot holds at most 0x1000. -/
  slotBound : ∀ (j : Nat) (h : j < stackDepth), (s.stk[j]'h).toNat ≤ 0x1000
  /-- `pc` is at most 0x10FE. -/
  pcBound : s.pc.toNat ≤ 0x10FE
  /-- A running machine has no cause, a halted one has. -/
  causeIffHalted : s.halt = true ↔ s.cause ≠ .none

/-- The states a machine can reach: from reset by steps and by the host's actions at any time (00_scope.md R6). -/
inductive Reachable : State → Prop where
  | reset : Reachable State.reset
  | step {s t : State} : Reachable s → Machine.step s = .next t → Reachable t
  | hostReset {s : State} : Reachable s → Reachable (Machine.hostReset s)
  | hostLoad {s t : State} {image : List Byte} : Reachable s → Machine.hostLoad image s = .next t → Reachable t
  | hostDrive {s : State} {levels : List PortLevels} : Reachable s → Reachable (Machine.hostDrive levels s)

/-! ## Encoding -/

/-- Every 16-bit value that selects the row of this mask and match decodes to the instruction made of its fields
(30_encoding.md R82, R86). -/
def DecodesTo (mask pattern : Word) (f : Word → Instr) : Prop := ∀ op : Word, op &&& mask = pattern → decode op = f op

/-! ## Outcomes -/

/-- The answer with its next state, if it has one, changed by a function. -/
def mapNext (f : State → State) : Result → Result
  | .next t => .next (f t)
  | .fault r => .fault r
  | .refused r => .refused r

/-- The state a fatal error of the execute phase leaves: the fault record is written, `FPC` is the address of the
instruction, nothing else changes (60_exceptions.md R188). -/
def haltedBy (e : Cause) (info : Nat) (s : State) : State :=
  { s with halt := true, cause := e, fpc := s.pc - 2, finfo := BitVec.ofNat 17 info }

/-! ## What an instruction may change or raise -/

/-- The registers an instruction may write: its destination, the flag where the spec names it as a side effect
(10_state.md R21), and `x[0]`, …, `x[X]` for FX65. -/
def mayWriteReg : Instr → Nibble → Prop
  | .ldI x _, r | .addI x _, r | .ldR x _, r | .or x _, r | .and x _, r | .xor x _, r | .rnd x _, r | .ldVdt x, r => r = x
  | .addR x _, r | .sub x _, r | .shr x _, r | .subn x _, r | .shl x _, r => r = x ∨ r = 15
  | .drw _ _ _, r => r = 15
  | .ldLd x, r => r.toNat ≤ x.toNat
  | _, _ => False

/-- The instructions that may write `pc` after the fetch has advanced it (10_state.md R23). -/
def transfersControl : Instr → Prop
  | .ret | .jp _ | .call _ | .jpV0 _ | .seI _ _ | .sneI _ _ | .seR _ _ | .sneR _ _ | .skp _ | .sknp _ | .wkr _ => True
  | _ => False

/-- The instructions that write the flag as a side effect, 0 or 1 (10_state.md R21). -/
def writesFlag : Instr → Prop
  | .addR _ _ | .sub _ _ | .shr _ _ | .subn _ _ | .shl _ _ | .drw _ _ _ => True
  | _ => False

/-- The fatal error an instruction may raise (60_exceptions.md R180). -/
def mayRaise : Instr → Cause → Prop
  | .call _, e => e = .stackOverflow
  | .ret, e => e = .stackUnderflow
  | .drw _ _ _, e | .ldB _, e | .ldSt _, e | .ldLd _, e => e = .memOutOfBounds
  | .skp _, e | .sknp _, e | .wkr _, e => e = .keyIndexRange
  | _, _ => False

/-! ## Sprites (44_display.md R161) -/

/-- The rows of the sprite that `DRW Vx, Vy, n` draws in this state: min(N, 32 − `y0`). -/
def rowsDrawn (y n : Nibble) (s : State) : Nat := min n.toNat (32 - (s.reg y).toNat % 32)

/-- Whether the sprite that `DRW Vx, Vy, n` draws in this state has a set bit over the cell at row `r` and column `c`:
byte `r - y0` of the sprite, bit `7 - (c - x0)`. -/
def spriteSets (x y n : Nibble) (s : State) (r c : Nat) : Bool :=
  let x0 := (s.reg x).toNat % 64
  let y0 := (s.reg y).toNat % 32
  decide (y0 ≤ r ∧ r < y0 + rowsDrawn y n s ∧ x0 ≤ c ∧ c < x0 + 8) &&
    (s.mem.read (s.i.toNat + (r - y0))).getLsbD (7 - (c - x0))

end Sys2Proof
end

