-- ==== Sys2Proof/Certificates/Slice0/Obligations.lean ====
section
/-! DEFINITION. The statements for the provers. Where a statement rests on a choice the spec marks as its own decision, its
docstring says so and names the log entry. "The state after" is written out as the state before with the fields that change,
so that each such equation is also the instruction's frame. -/

open Sys2Proof Sys2Proof.Machine

/-! ## Reset, fetch, step -/

/-- 10_state.md section 11 (R36), 70_reset_and_hazards.md section 1 (R200) and 10_state.md section 10 (R34): after reset, and after the input port
`reset` in any state, the halted ones too, everything is 0 but the glyph table and `pc` = 0x200. `pc` is decision D2 (log 1), the
glyph bytes are D3 (log 2), the spec's own choices; the port as a function of the host is log 25. -/
def Obligations.ResetLeavesTheStatedValues : Prop :=
  ∀ t : State, (t = State.reset ∨ ∃ s, t = hostReset s) →
  (∀ r : Nibble, t.reg r = 0) ∧ t.pc = 0x200 ∧ t.i = 0 ∧ t.sp = 0 ∧
  (∀ (j : Nat) (h : j < 16), t.stk[j]'h = 0) ∧ t.dt = 0 ∧ t.st = 0 ∧
  (∀ y x : Nat, cell t.fb y x = false) ∧ t.k = 0 ∧ t.kp = 0 ∧ t.halt = false ∧
  t.cause = .none ∧ t.fpc = 0 ∧ t.finfo = 0 ∧
  (∀ a : Nat, a < 0x050 ∨ 0x09F < a → t.mem.read a = 0) ∧
  readSeq .fault t.mem 0x050 80 =
    [0xF0, 0x90, 0x90, 0x90, 0xF0, 0x20, 0x60, 0x20, 0x20, 0x70, 0xF0, 0x10, 0xF0, 0x80, 0xF0, 0xF0, 0x10, 0xF0, 0x10, 0xF0] ++
    [0x90, 0x90, 0xF0, 0x10, 0x10, 0xF0, 0x80, 0xF0, 0x10, 0xF0, 0xF0, 0x80, 0xF0, 0x90, 0xF0, 0xF0, 0x10, 0x20, 0x40, 0x40] ++
    [0xF0, 0x90, 0xF0, 0x90, 0xF0, 0xF0, 0x90, 0xF0, 0x10, 0xF0, 0xF0, 0x90, 0xF0, 0x90, 0x90, 0xE0, 0x90, 0xE0, 0x90, 0xE0] ++
    [0xF0, 0x80, 0x80, 0x80, 0xF0, 0xE0, 0x90, 0x90, 0x90, 0xE0, 0xF0, 0x80, 0xF0, 0x80, 0xF0, 0xF0, 0x80, 0xF0, 0x80, 0x80]

/-- 10_state.md section 11 (R38, which the spec derives): the reset state meets the invariant. Its clause on memory is the
model's form (log 20), that on the cause D14 (log 12). -/
def Obligations.ResetMeetsTheInvariant : Prop := Inv State.reset

/-- 30_encoding.md section 3: eight words of seven families (0, 2, 3, 8, D, E, F), written out bit by bit, decode to their
instructions. That 8127 is `SUBN` is the spec's own pairing G4, log 23; that 8128 is unrecognised is the whole-pattern match of
D11, log 9. -/
def Obligations.DecodeReadsTheSpecsWords : Prop :=
  decode 0b0000000011100000 = .cls ∧ decode 0b0010101010111100 = .call 0xABC ∧ decode 0b0011101000000101 = .seI 0xA 0x05 ∧
  decode 0b1000000100100111 = .subn 1 2 ∧ decode 0b1101000100100101 = .drw 1 2 5 ∧ decode 0b1110001110100001 = .sknp 3 ∧
  decode 0b1111001100110011 = .ldB 3 ∧ decode 0b1000000100101000 = .nopU 0x8128

/-- 30_encoding.md section 5 (R93; the sampling is decision D12, log 10; the tick's place D13, log 11): a step of a running machine
samples the keys, fetches two bytes big-endian, advances `pc` by 2, runs the decoded instruction, and then lets at most one
tick fall. The port levels are those the host has fixed, or free values (log 15, 16); the first cycle
closes the load (log 19). -/
def Obligations.StepRunsTheDecodedInstruction : Prop :=
  ∀ (s : State) (op : Word), s.halt = false → s.pc.toNat ≤ 0xFFE →
    op.toNat = (s.mem.read s.pc.toNat).toNat * 256 + (s.mem.read (s.pc.toNat + 1)).toNat →
    step s = atBoundary (exec (decode op)
      { s with
        pc := s.pc + 2
        kp := s.k
        k := s.env.nextLevels.keyIn
        env := { s.env with
          keyIn := s.env.nextLevels.keyIn
          rndIn := s.env.nextLevels.rndIn
          tickIn := s.env.nextLevels.tick
          loadOpen := false
          refresh := none
          pending := s.env.pending.tail
          draws := if s.env.pending = [] then s.env.draws + 1 else s.env.draws } })

/-- 30_encoding.md section 1 (R81), 60_exceptions.md section 1 (R184); decision D5, log 3: a fetch above 0xFFE halts the machine with
`FPC` = `FINFO` = `pc`, which is not advanced. 30_encoding.md section 5 (R93), 60_exceptions.md section 2 (R188): the sample of
phase 0 has happened (D12, log 10) and no tick follows (D14, log 12). The host side is that of the iteration (log 11, 15, 16, 19). -/
def Obligations.FetchOutsideMemoryHalts : Prop :=
  ∀ s : State, s.halt = false → 0xFFE < s.pc.toNat →
    step s = .next
      { s with
        kp := s.k
        k := s.env.nextLevels.keyIn
        halt := true
        cause := .fetchOutOfBounds
        fpc := s.pc
        finfo := BitVec.ofNat 17 s.pc.toNat
        env := { s.env with
          keyIn := s.env.nextLevels.keyIn
          rndIn := s.env.nextLevels.rndIn
          tickIn := s.env.nextLevels.tick
          loadOpen := false
          refresh := none
          pending := s.env.pending.tail
          draws := if s.env.pending = [] then s.env.draws + 1 else s.env.draws } }

/-- 60_exceptions.md section 2 (R189; decision D14, log 12): once `HALT` = 1 no cycle is enabled and a tick changes nothing. -/
def Obligations.HaltedMachineTakesNoStep : Prop :=
  ∀ s : State, s.halt = true → step s = .fault .halted ∧ boundary s = s

/-- Log 11, 12: a running machine always takes its step; no instruction and no data stops the model. 30_encoding.md section 4:
the machine has no illegal-instruction trap. -/
def Obligations.RunningMachineAlwaysSteps : Prop :=
  (∀ (i : Instr) (s : State), ∃ t, exec i s = .next t) ∧ ∀ s : State, s.halt = false → ∃ t, step s = .next t

/-! ## Loads, arithmetic, logic, shifts, random (42_alu.md) -/

/-- R130. -/
def Obligations.LoadImmediateSetsItsRegister : Prop :=
  DecodesTo 0xF000 0x6000 (fun op => .ldI (fieldX op) (fieldNN op)) ∧
  ∀ (x : Nibble) (nn : Byte) (s : State), exec (.ldI x nn) s = .next { s with x := s.x.set x.toNat nn x.isLt }

/-- R131: the sum modulo 256, and no flag unless X = 15. -/
def Obligations.AddImmediateWrapsWithoutFlag : Prop :=
  DecodesTo 0xF000 0x7000 (fun op => .addI (fieldX op) (fieldNN op)) ∧
  ∀ (x : Nibble) (nn : Byte) (s : State), exec (.addI x nn) s = .next
    { s with x := s.x.set x.toNat (BitVec.ofNat 8 (((s.reg x).toNat + nn.toNat) % 256)) x.isLt }

/-- R132 to R135 (their sub-opcodes 0 to 3 are the spec's reading, G4, log 23): the register is written and, unless X = 15, no flag. -/
def Obligations.CopyAndLogicWriteOnlyTheirRegister : Prop :=
  DecodesTo 0xF00F 0x8000 (fun op => .ldR (fieldX op) (fieldY op)) ∧
  DecodesTo 0xF00F 0x8001 (fun op => .or (fieldX op) (fieldY op)) ∧
  DecodesTo 0xF00F 0x8002 (fun op => .and (fieldX op) (fieldY op)) ∧
  DecodesTo 0xF00F 0x8003 (fun op => .xor (fieldX op) (fieldY op)) ∧
  ∀ (x y : Nibble) (s : State),
    exec (.ldR x y) s = .next { s with x := s.x.set x.toNat (s.reg y) x.isLt } ∧
    exec (.or x y) s = .next { s with x := s.x.set x.toNat (s.reg x ||| s.reg y) x.isLt } ∧
    exec (.and x y) s = .next { s with x := s.x.set x.toNat (s.reg x &&& s.reg y) x.isLt } ∧
    exec (.xor x y) s = .next { s with x := s.x.set x.toNat (s.reg x ^^^ s.reg y) x.isLt }

/-- R136: the sum modulo 256 into `x[X]`, then the carry into `x[15]`, last. -/
def Obligations.AddWritesSumThenCarry : Prop :=
  DecodesTo 0xF00F 0x8004 (fun op => .addR (fieldX op) (fieldY op)) ∧
  ∀ (x y : Nibble) (s : State), exec (.addR x y) s = .next
    { s with
      x := (s.x.set x.toNat (BitVec.ofNat 8 (((s.reg x).toNat + (s.reg y).toNat) % 256)) x.isLt).set 15
        (if 255 < (s.reg x).toNat + (s.reg y).toNat then 1 else 0) }

/-- 42_alu.md section 3 (R137, R139), with the flag 1 when no borrow occurred: decision D6, log 4, the spec's own
choice. That 8XY7 is the reversed subtract is the spec's own pairing G4, log 23. -/
def Obligations.SubtractsWriteDifferenceThenNoBorrow : Prop :=
  DecodesTo 0xF00F 0x8005 (fun op => .sub (fieldX op) (fieldY op)) ∧
  DecodesTo 0xF00F 0x8007 (fun op => .subn (fieldX op) (fieldY op)) ∧
  ∀ (x y : Nibble) (s : State),
    exec (.sub x y) s = .next
      { s with
        x := (s.x.set x.toNat (BitVec.ofNat 8 (((s.reg x).toNat + 256 - (s.reg y).toNat) % 256)) x.isLt).set 15
          (if (s.reg y).toNat ≤ (s.reg x).toNat then 1 else 0) } ∧
    exec (.subn x y) s = .next
      { s with
        x := (s.x.set x.toNat (BitVec.ofNat 8 (((s.reg y).toNat + 256 - (s.reg x).toNat) % 256)) x.isLt).set 15
          (if (s.reg x).toNat ≤ (s.reg y).toNat then 1 else 0) }

/-- 42_alu.md section 3 (R138, R140): `x[X]` is shifted in place and Y ignored, decision D7, log 5, the spec's own choice.
That 8XY6 shifts right and 8XYE left is the spec's own pairing G4, log 23. -/
def Obligations.ShiftsWriteResultThenBitOut : Prop :=
  DecodesTo 0xF00F 0x8006 (fun op => .shr (fieldX op) (fieldY op)) ∧
  DecodesTo 0xF00F 0x800E (fun op => .shl (fieldX op) (fieldY op)) ∧
  ∀ (x y : Nibble) (s : State),
    exec (.shr x y) s = .next
      { s with
        x := (s.x.set x.toNat (BitVec.ofNat 8 ((s.reg x).toNat / 2)) x.isLt).set 15
          (BitVec.ofNat 8 ((s.reg x).toNat % 2)) } ∧
    exec (.shl x y) s = .next
      { s with
        x := (s.x.set x.toNat (BitVec.ofNat 8 ((s.reg x).toNat * 2 % 256)) x.isLt).set 15
          (BitVec.ofNat 8 ((s.reg x).toNat / 128)) }

/-- 42_alu.md section 4 (R141): the draw is the level of `rnd_in`, any byte (decision D17, log 15); all a proof may use is that
`x[X] and (not NN) = 0` and `x[X]` ≤ NN. -/
def Obligations.RandomWritesTheMaskedDraw : Prop :=
  DecodesTo 0xF000 0xC000 (fun op => .rnd (fieldX op) (fieldNN op)) ∧
  ∀ (x : Nibble) (nn : Byte) (s : State), ∃ v : Byte,
    exec (.rnd x nn) s = .next { s with x := s.x.set x.toNat v x.isLt } ∧
    v = s.env.rndIn &&& nn ∧ v &&& ~~~nn = 0 ∧ v.toNat ≤ nn.toNat

/-! ## Control flow (40_control_flow.md, 41_skips.md) -/

/-- R111. -/
def Obligations.JumpSetsPc : Prop :=
  DecodesTo 0xF000 0x1000 (fun op => .jp (fieldNNN op)) ∧
  ∀ (nnn : Addr12) (s : State), exec (.jp nnn) s = .next { s with pc := BitVec.ofNat 16 nnn.toNat }

/-- 40_control_flow.md (R110) and 60_exceptions.md section 1 (R182; the record is decision D14, log 12). -/
def Obligations.ReturnPopsOrUnderflows : Prop :=
  DecodesTo 0xFFFF 0x00EE (fun _ => .ret) ∧
  (∀ (s : State) (j : Nat) (h : j < 16), s.sp.val = j + 1 →
    exec .ret s = .next { s with sp := ⟨j, Nat.lt_succ_of_lt h⟩, pc := s.stk[j]'h }) ∧
  ∀ s : State, s.sp = 0 → exec .ret s = .next (haltedBy .stackUnderflow 0 s)

/-- 40_control_flow.md (R112) and 60_exceptions.md section 1 (R181; the record is decision D14, log 12). The pushed value is `pc`, which is
the address of the instruction after the call. -/
def Obligations.CallPushesOrOverflows : Prop :=
  DecodesTo 0xF000 0x2000 (fun op => .call (fieldNNN op)) ∧
  (∀ (nnn : Addr12) (s : State) (h : s.sp.val < 16), exec (.call nnn) s = .next
    { s with stk := s.stk.set s.sp.val s.pc h, sp := ⟨s.sp.val + 1, Nat.succ_lt_succ h⟩, pc := BitVec.ofNat 16 nnn.toNat }) ∧
  ∀ (nnn : Addr12) (s : State), s.sp = 16 → exec (.call nnn) s = .next (haltedBy .stackOverflow 16 s)

/-- 40_control_flow.md (R113): always register 0; the unreduced sum and the fetch fault are decision D5, log 3 and 26. -/
def Obligations.JumpWithOffsetAddsRegisterZero : Prop :=
  DecodesTo 0xF000 0xB000 (fun op => .jpV0 (fieldNNN op)) ∧
  ∀ (nnn : Addr12) (s : State), ∃ target : Word,
    exec (.jpV0 nnn) s = .next { s with pc := target } ∧ target.toNat = nnn.toNat + (s.reg 0).toNat

/-- 40_control_flow.md (R114); which values these are is decision D11, log 9. -/
def Obligations.UnrecognisedValueDoesNothing : Prop :=
  (∀ op : Word, recognised true op = false → decode op = .nopU op) ∧
  ∀ (op : Word) (s : State), exec (.nopU op) s = .next s

/-- R120, R121: the two skips on an immediate, each the other's complement. -/
def Obligations.ImmediateSkipsCompareWithNN : Prop :=
  DecodesTo 0xF000 0x3000 (fun op => .seI (fieldX op) (fieldNN op)) ∧
  DecodesTo 0xF000 0x4000 (fun op => .sneI (fieldX op) (fieldNN op)) ∧
  ∀ (x : Nibble) (nn : Byte) (s : State),
    exec (.seI x nn) s = .next { s with pc := if s.reg x = nn then s.pc + 2 else s.pc } ∧
    exec (.sneI x nn) s = .next { s with pc := if s.reg x = nn then s.pc else s.pc + 2 }

/-- 41_skips.md (R122, R123); that the low nibble must be 0 is decision D11, log 9. -/
def Obligations.RegisterSkipsCompareTwoRegisters : Prop :=
  DecodesTo 0xF00F 0x5000 (fun op => .seR (fieldX op) (fieldY op)) ∧
  DecodesTo 0xF00F 0x9000 (fun op => .sneR (fieldX op) (fieldY op)) ∧
  ∀ (x y : Nibble) (s : State),
    exec (.seR x y) s = .next { s with pc := if s.reg x = s.reg y then s.pc + 2 else s.pc } ∧
    exec (.sneR x y) s = .next { s with pc := if s.reg x = s.reg y then s.pc else s.pc + 2 }

/-- 95_test_vectors.md S6: a call followed at once by a return restores `pc` as it was after the call's own fetch, and `SP`,
wherever the return was fetched from. -/
def Obligations.CallThenReturnRestoresPc : Prop :=
  ∀ (nnn : Addr12) (s : State) (fetched : Word), s.sp.val < 16 →
    ∃ t u, exec (.call nnn) s = .next t ∧ exec .ret { t with pc := fetched } = .next u ∧ u.pc = s.pc ∧ u.sp = s.sp

/-! ## Index register and memory (43_index_memory.md) -/

/-- R150. -/
def Obligations.LoadIndexSetsI : Prop :=
  DecodesTo 0xF000 0xA000 (fun op => .ldIdx (fieldNNN op)) ∧
  ∀ (nnn : Addr12) (s : State), exec (.ldIdx nnn) s = .next { s with i := BitVec.ofNat 16 nnn.toNat }

/-- 43_index_memory.md (R151); that no flag is written is decision D9, log 7. -/
def Obligations.AddIndexWrapsWithoutFlag : Prop :=
  DecodesTo 0xF0FF 0xF01E (fun op => .addIdx (fieldX op)) ∧
  ∀ (x : Nibble) (s : State), exec (.addIdx x) s = .next
    { s with i := BitVec.ofNat 16 ((s.i.toNat + (s.reg x).toNat) % 65536) }

/-- 43_index_memory.md (R152); that the whole byte is used is decision D19, log 18. -/
def Obligations.GlyphAddressIsBasePlusFiveTimesX : Prop :=
  DecodesTo 0xF0FF 0xF029 (fun op => .ldF (fieldX op)) ∧
  ∀ (x : Nibble) (s : State), ∃ a : Word,
    exec (.ldF x) s = .next { s with i := a } ∧ a.toNat = 0x050 + 5 * (s.reg x).toNat

/-- 43_index_memory.md (R153): three digits at I, I+1, I+2, or `MemOutOfBounds` (D4, D14, log 3, 12) with nothing written. -/
def Obligations.DecimalDigitsAreStoredAtI : Prop :=
  DecodesTo 0xF0FF 0xF033 (fun op => .ldB (fieldX op)) ∧
  (∀ (x : Nibble) (s : State), s.i.toNat ≤ 0xFFD → ∃ m : Memory,
    exec (.ldB x) s = .next { s with mem := m } ∧
    (m.read s.i.toNat).toNat * 100 + (m.read (s.i.toNat + 1)).toNat * 10 + (m.read (s.i.toNat + 2)).toNat = (s.reg x).toNat ∧
    (m.read (s.i.toNat + 1)).toNat ≤ 9 ∧ (m.read (s.i.toNat + 2)).toNat ≤ 9 ∧
    ∀ a : Nat, a < s.i.toNat ∨ s.i.toNat + 2 < a → m.read a = s.mem.read a) ∧
  ∀ (x : Nibble) (s : State), 0xFFD < s.i.toNat →
    exec (.ldB x) s = .next (haltedBy .memOutOfBounds (max s.i.toNat 0x1000) s)

/-- 43_index_memory.md (R154): registers 0..X to I..I+X, I unchanged (decision D8, log 6), or `MemOutOfBounds` (D4, D14, log 3, 12) with
nothing written. -/
def Obligations.StoreCopiesRegistersToMemory : Prop :=
  DecodesTo 0xF0FF 0xF055 (fun op => .ldSt (fieldX op)) ∧
  (∀ (x : Nibble) (s : State), s.i.toNat + x.toNat ≤ 0xFFF → ∃ m : Memory,
    exec (.ldSt x) s = .next { s with mem := m } ∧
    (∀ r : Nibble, r.toNat ≤ x.toNat → m.read (s.i.toNat + r.toNat) = s.reg r) ∧
    ∀ a : Nat, a < s.i.toNat ∨ s.i.toNat + x.toNat < a → m.read a = s.mem.read a) ∧
  ∀ (x : Nibble) (s : State), 0xFFF < s.i.toNat + x.toNat →
    exec (.ldSt x) s = .next (haltedBy .memOutOfBounds (max s.i.toNat 0x1000) s)

/-- 43_index_memory.md (R155): registers 0..X from I..I+X, I unchanged (decision D8, log 6), or `MemOutOfBounds` (D4, D14, log 3, 12) with
no register written. -/
def Obligations.LoadCopiesMemoryToRegisters : Prop :=
  DecodesTo 0xF0FF 0xF065 (fun op => .ldLd (fieldX op)) ∧
  (∀ (x : Nibble) (s : State), s.i.toNat + x.toNat ≤ 0xFFF → ∃ v : Vector Byte 16,
    exec (.ldLd x) s = .next { s with x := v } ∧
    ∀ r : Nibble, v[r.toNat]'r.isLt = if r.toNat ≤ x.toNat then s.mem.read (s.i.toNat + r.toNat) else s.reg r) ∧
  ∀ (x : Nibble) (s : State), 0xFFF < s.i.toNat + x.toNat →
    exec (.ldLd x) s = .next (haltedBy .memOutOfBounds (max s.i.toNat 0x1000) s)

/-- 43_index_memory.md (R154, R155, R156): what FX55 stored, FX65 with the same X loads back, whatever the registers held in
between; `I` being unchanged is decision D8, log 6. -/
def Obligations.StoreThenLoadRestoresRegisters : Prop :=
  ∀ (x : Nibble) (s t u : State) (v : Vector Byte 16), s.i.toNat + x.toNat ≤ 0xFFF →
    exec (.ldSt x) s = .next t → exec (.ldLd x) { t with x := v } = .next u →
    ∀ r : Nibble, r.toNat ≤ x.toNat → u.reg r = s.reg r

/-- 20_memory.md section 5 (R60, which the spec derives): bytes that FX55 stored are what the very next fetch at their address
reads, high byte first. -/
def Obligations.StoredBytesAreFetchedAtOnce : Prop :=
  ∀ (x : Nibble) (s t : State) (r q : Nibble), s.i.toNat + x.toNat ≤ 0xFFF → exec (.ldSt x) s = .next t →
    q.toNat = r.toNat + 1 → q.toNat ≤ x.toNat →
    ∃ op : Word, fetch { t with pc := BitVec.ofNat 16 (s.i.toNat + r.toNat) } = some op ∧
      op.toNat = (s.reg r).toNat * 256 + (s.reg q).toNat

/-! ## Framebuffer (44_display.md) -/

/-- R160. -/
def Obligations.ClearSetsEveryCellToZero : Prop :=
  DecodesTo 0xFFFF 0x00E0 (fun _ => .cls) ∧
  ∀ s : State, ∃ fb : Framebuffer, exec .cls s = .next { s with fb := fb } ∧ ∀ y x : Nat, cell fb y x = false

/-- 44_display.md (R161; the order of reads and writes and the rows that are checked are decision D15, log 13; the fault is D4, D14, log 3, 12):
each drawn set bit flips its cell, nothing else changes but `x[15]`, which is 1 exactly if a set cell was flipped. -/
def Obligations.SpriteFlipsItsCellsAndReportsCollision : Prop :=
  DecodesTo 0xF000 0xD000 (fun op => .drw (fieldX op) (fieldY op) (fieldN op)) ∧
  (∀ (x y n : Nibble) (s : State), rowsDrawn y n s = 0 ∨ s.i.toNat + rowsDrawn y n s - 1 ≤ 0xFFF →
    ∃ (fb : Framebuffer) (flag : Byte),
      exec (.drw x y n) s = .next { s with fb := fb, x := s.x.set 15 flag } ∧
      (∀ r c : Nat, r < 32 → c < 64 → cell fb r c = (cell s.fb r c ^^ spriteSets x y n s r c)) ∧
      (flag = 0 ∨ flag = 1) ∧
      (flag = 1 ↔ ∃ r c : Nat, r < 32 ∧ c < 64 ∧ spriteSets x y n s r c = true ∧ cell s.fb r c = true)) ∧
  ∀ (x y n : Nibble) (s : State), rowsDrawn y n s ≠ 0 → 0xFFF < s.i.toNat + rowsDrawn y n s - 1 →
    exec (.drw x y n) s = .next (haltedBy .memOutOfBounds (max s.i.toNat 0x1000) s)

/-- 44_display.md (R161) and 95_test_vectors.md S4: drawing the same sprite twice at the same place restores the
framebuffer; on an empty background the first draw reports 0 and the second 1 if a set bit was drawn. With X or Y = 15 the
second draw is at another place (decision D15, log 13), so those forms are the first draw's statement only. -/
def Obligations.SpriteDrawnTwiceRestoresTheFramebuffer : Prop :=
  ∀ (x y n : Nibble) (s t u : State), x ≠ 15 → y ≠ 15 → s.halt = false →
    exec (.drw x y n) s = .next t → t.halt = false → exec (.drw x y n) t = .next u →
    u.fb = s.fb ∧ u.halt = false ∧
    ((∀ r c : Nat, cell s.fb r c = false) → t.reg 15 = 0 ∧
      (u.reg 15 = 1 ↔ ∃ r c : Nat, r < 32 ∧ c < 64 ∧ spriteSets x y n s r c = true))

/-- 10_state.md section 10 (R35; the linear order is decision D16, log 14): bit y·64 + x of `fb_out` is `FB[y][x]`. -/
def Obligations.FramebufferOutIsRowMajor : Prop :=
  ∀ (fb : Framebuffer) (y x : Nat), y < 32 → x < 64 → (fbOut fb).getLsbD (y * 64 + x) = cell fb y x

/-! ## Timers and keys (45_timers_input.md, 60_exceptions.md section 5) -/

/-- R170, R171. -/
def Obligations.DelayTimerIsReadAndSet : Prop :=
  DecodesTo 0xF0FF 0xF007 (fun op => .ldVdt (fieldX op)) ∧
  DecodesTo 0xF0FF 0xF015 (fun op => .ldDtv (fieldX op)) ∧
  ∀ (x : Nibble) (s : State),
    exec (.ldVdt x) s = .next { s with x := s.x.set x.toNat s.dt x.isLt } ∧
    exec (.ldDtv x) s = .next { s with dt := s.reg x }

/-- 45_timers_input.md (R172); that the buzzer is on exactly when `ST` ≠ 0 is decision D18, log 17. -/
def Obligations.SoundTimerIsSetAndGatesTheBuzzer : Prop :=
  DecodesTo 0xF0FF 0xF018 (fun op => .ldStv (fieldX op)) ∧
  ∀ (x : Nibble) (s : State), ∃ t : State,
    exec (.ldStv x) s = .next t ∧ t = { s with st := s.reg x } ∧ (buzzer t = true ↔ s.reg x ≠ 0)

/-- 45_timers_input.md (R173, R174, R176); the fatal error above 15 is decision D10, log 8, the sample it reads D12, log 10. -/
def Obligations.KeySkipsTestTheSampledKey : Prop :=
  DecodesTo 0xF0FF 0xE09E (fun op => .skp (fieldX op)) ∧
  DecodesTo 0xF0FF 0xE0A1 (fun op => .sknp (fieldX op)) ∧
  (∀ (x : Nibble) (s : State), (s.reg x).toNat ≤ 15 →
    exec (.skp x) s = .next { s with pc := if s.k.getLsbD (s.reg x).toNat = true then s.pc + 2 else s.pc } ∧
    exec (.sknp x) s = .next { s with pc := if s.k.getLsbD (s.reg x).toNat = true then s.pc else s.pc + 2 }) ∧
  ∀ (x : Nibble) (s : State), 15 < (s.reg x).toNat →
    exec (.skp x) s = .next (haltedBy .keyIndexRange (s.reg x).toNat s) ∧
    exec (.sknp x) s = .next (haltedBy .keyIndexRange (s.reg x).toNat s)

/-- 45_timers_input.md (R175, R176); the fatal error above 15 is decision D10, log 8. No register is written. -/
def Obligations.KeyWaitFallsThroughOnTheReleaseEdge : Prop :=
  DecodesTo 0xF0FF 0xF00A (fun op => .wkr (fieldX op)) ∧
  (∀ (x : Nibble) (s : State), (s.reg x).toNat ≤ 15 →
    s.kp.getLsbD (s.reg x).toNat = true → s.k.getLsbD (s.reg x).toNat = false → exec (.wkr x) s = .next s) ∧
  (∀ (x : Nibble) (s : State), (s.reg x).toNat ≤ 15 →
    ¬ (s.kp.getLsbD (s.reg x).toNat = true ∧ s.k.getLsbD (s.reg x).toNat = false) →
    exec (.wkr x) s = .next { s with pc := s.pc - 2 }) ∧
  ∀ (x : Nibble) (s : State), 15 < (s.reg x).toNat →
    exec (.wkr x) s = .next (haltedBy .keyIndexRange (s.reg x).toNat s)

/-- 45_timers_input.md (R175) and 95_test_vectors.md S10, over whole steps: while it waits the machine re-fetches the
instruction; it goes past it exactly in the step whose sample finds the key released that the step before found pressed
(sampling: decision D12, log 10). -/
def Obligations.KeyWaitRepeatsUntilTheReleaseEdge : Prop :=
  ∀ (x : Nibble) (s t : State), s.halt = false → s.pc.toNat ≤ 0xFFE →
    decode (wordOfBytes (s.mem.read s.pc.toNat) (s.mem.read (s.pc.toNat + 1))) = .wkr x → (s.reg x).toNat ≤ 15 →
    step s = .next t →
    t.x = s.x ∧ t.halt = false ∧ t.kp = s.k ∧ t.k = s.env.nextLevels.keyIn ∧
    t.pc = if s.k.getLsbD (s.reg x).toNat = true ∧ s.env.nextLevels.keyIn.getLsbD (s.reg x).toNat = false
      then s.pc + 2 else s.pc

/-- 60_exceptions.md section 5 (R193): the tick presents the framebuffer and the buzzer as they are before the decrement, lowers both timers with a floor
at 0, touches nothing else, and happens only on a machine that is not halted; after N ticks a timer that held N reads 0, and
never less. That at most one tick falls on the boundary after a cycle, as the iteration's `tickIn` says, is the model's form of the
step (D13, log 11); that the presented buzzer is on exactly when `ST` ≠ 0 is D18, log 17. -/
def Obligations.TickPresentsThenCountsDown : Prop :=
  (∀ s : State, tick s =
    { s with
      dt := if s.dt = 0 then 0 else s.dt - 1
      st := if s.st = 0 then 0 else s.st - 1
      env := { s.env with refresh := some ⟨fbOut s.fb, s.st != 0⟩ } }) ∧
  (∀ s : State, boundary s = if s.halt = false ∧ s.env.tickIn = true then tick s else s) ∧
  ∀ (s : State) (n : Nat),
    (tick^[n] s).dt.toNat = s.dt.toNat - n ∧ (tick^[n] s).st.toNat = s.st.toNat - n

/-! ## The encoding as a whole (30_encoding.md) -/

/-- 30_encoding.md sections 3 and 4: decoding an encoded well-formed instruction gives it back, as a value and as bytes. -/
def Obligations.DecodeInvertsEncode : Prop :=
  ∀ (i : Instr) (rest : List Byte), i.wellFormed = true →
    decode (encode i) = i ∧ decodeBytes (encodeBytes i ++ rest) = .ok (i, rest)

/-- 30_encoding.md section 4: every 16-bit value is the encoding of what it decodes to, which is well-formed: no bit is lost
and each value has one meaning. It rests on the whole-pattern match of `STRICT_DECODE` = true (D11, log 9): a looser decoder
ignores bits. -/
def Obligations.EncodeInvertsDecode : Prop :=
  ∀ op : Word, encode (decode op) = op ∧ (decode op).wellFormed = true

/-- 30_encoding.md sections 3 and 4, under either value of `STRICT_DECODE` (D11, log 9): the dispatch rules call a value
unrecognised exactly when no row of the opcode map selects it. -/
def Obligations.DispatchAgreesWithTheOpcodeMap : Prop :=
  ∀ (strict : Bool) (op : Word), decodeWith strict op = .nopU op ↔ recognised strict op = false

/-- 30_encoding.md section 4: no value selects two rows of the opcode map, under either value of `STRICT_DECODE`. -/
def Obligations.OpcodeRowsAreDisjoint : Prop :=
  ∀ (strict : Bool) (op : Word), ((opcodeRows strict).filter (·.selects op)).length ≤ 1

/-! ## The machine as a whole -/

/-- 10_state.md section 11 (R38, which the spec derives): every step from a state that meets the invariant gives one that
meets it. Its clause on memory is the model's form (log 20), that on the cause D14 (log 12), the unreduced `pc` D5 (log 3, 26). -/
def Obligations.StepKeepsTheInvariant : Prop :=
  ∀ s t : State, Inv s → step s = .next t → Inv t

/-- 10_state.md section 11 (R38, which the spec derives): every state that steps and the host's actions reach from reset
meets the invariant. That the host resets, loads and fixes port levels between any two steps is the model's form, log 25;
the invariant's own clauses are as in the statement above (log 3, 12, 20, 26). -/
def Obligations.ReachableStatesMeetTheInvariant : Prop :=
  ∀ s : State, Reachable s → Inv s

/-- 20_memory.md section 6 (R62, R65): only FX33 and FX55 change memory. -/
def Obligations.OnlyStoresChangeMemory : Prop :=
  ∀ (i : Instr) (s t : State), exec i s = .next t → t.mem ≠ s.mem → ∃ x, i = .ldB x ∨ i = .ldSt x

/-- 44_display.md (R163): only 00E0 and DXYN change the framebuffer. -/
def Obligations.OnlyClearAndDrawChangeTheFramebuffer : Prop :=
  ∀ (i : Instr) (s t : State), exec i s = .next t → t.fb ≠ s.fb → i = .cls ∨ ∃ x y n, i = .drw x y n

/-- 10_state.md section 4 (R24) and 43_index_memory.md (R156; that FX55 and FX65 leave `I` alone is decision D8, log 6). -/
def Obligations.OnlyIndexInstructionsChangeI : Prop :=
  ∀ (i : Instr) (s t : State), exec i s = .next t → t.i ≠ s.i →
    (∃ nnn, i = .ldIdx nnn) ∨ (∃ x, i = .addIdx x) ∨ ∃ x, i = .ldF x

/-- 10_state.md section 4 (R25, R26): only 2NNN writes a slot, and only 2NNN and 00EE move `SP`, by one. Only 00EE reads a slot:
every other instruction answers the same whatever the slots hold, and 2NNN puts its return address into the slot at `SP` of
whatever they hold; only 2NNN and 00EE read `SP`. -/
def Obligations.OnlyCallAndReturnTouchTheStack : Prop :=
  (∀ (i : Instr) (s t : State), exec i s = .next t →
    (t.stk ≠ s.stk → ∃ nnn, i = .call nnn) ∧
    (t.sp ≠ s.sp → (i = .ret ∧ t.sp.val + 1 = s.sp.val) ∨ ((∃ nnn, i = .call nnn) ∧ t.sp.val = s.sp.val + 1))) ∧
  (∀ (i : Instr) (s : State) (slots : Vector Word 16) (p : Fin 17), i ≠ .ret → (∀ nnn, i ≠ .call nnn) →
    exec i { s with stk := slots, sp := p } = mapNext (fun t => { t with stk := slots, sp := p }) (exec i s)) ∧
  ∀ (nnn : Addr12) (s : State) (slots : Vector Word 16),
    exec (.call nnn) { s with stk := slots } =
      mapNext (fun t => { t with stk := if h : s.sp.val < 16 then slots.set s.sp.val s.pc h else slots }) (exec (.call nnn) s)

/-- 10_state.md section 5 (R27): only FX15 writes `DT` and only FX18 writes `ST`, the tick apart. -/
def Obligations.OnlyTimerInstructionsChangeTimers : Prop :=
  ∀ (i : Instr) (s t : State), exec i s = .next t →
    (t.dt ≠ s.dt → ∃ x, i = .ldDtv x) ∧ (t.st ≠ s.st → ∃ x, i = .ldStv x)

/-- 10_state.md section 7 (R30): the key samples are written by the sample phase only; no instruction writes them or drives a
port. -/
def Obligations.NoInstructionChangesSamplesOrPorts : Prop :=
  ∀ (i : Instr) (s t : State), exec i s = .next t → t.k = s.k ∧ t.kp = s.kp ∧ t.env = s.env

/-- 10_state.md section 2 (R20, R21) and 42_alu.md (R142): a register changes only as the destination the instruction names,
as the flag of the six flag-writing instructions, or among `x[0]`, …, `x[X]` for FX65 (that FX1E writes no flag is D9, log 7). -/
def Obligations.RegistersChangeOnlyWhereNamed : Prop :=
  ∀ (i : Instr) (s t : State) (r : Nibble), exec i s = .next t → t.reg r ≠ s.reg r → mayWriteReg i r

/-- 10_state.md section 3 (R23): after the fetch only the control transfers write `pc`. -/
def Obligations.OnlyControlTransfersChangePc : Prop :=
  ∀ (i : Instr) (s t : State), exec i s = .next t → t.pc ≠ s.pc → transfersControl i

/-- 10_state.md sections 2 and 11 (R21, R38): a flag-writing instruction that completes leaves 0 or 1 in `x[15]`. -/
def Obligations.FlagIsZeroOrOneAfterFlagWriters : Prop :=
  ∀ (i : Instr) (s t : State), writesFlag i → s.halt = false → exec i s = .next t → t.halt = false →
    t.reg 15 = 0 ∨ t.reg 15 = 1

/-- 60_exceptions.md sections 1 and 2 (R180, R186, R188) and 20_memory.md section 4 (R66), decision D14, log 12 (`FPC` = `pc` − 2: log 21): an
instruction either leaves the fault record alone, or raises the one error it may raise, with its own address in `FPC` and no
other effect. 10_state.md sections 8 and 10 (R31, R35): `halt_out`, `cause_out`, `fpc_out` and `finfo_out` carry the record, the
causes numbered 0 to 5 (the numbers: D14, log 12). -/
def Obligations.FatalErrorsArePrecise : Prop :=
  (∀ (i : Instr) (s t : State), s.halt = false → exec i s = .next t →
    (t.halt = false ∧ t.cause = s.cause ∧ t.fpc = s.fpc ∧ t.finfo = s.finfo) ∨
    (mayRaise i t.cause ∧ t = { s with halt := true, cause := t.cause, fpc := s.pc - 2, finfo := t.finfo })) ∧
  (∀ s : State, (diagnostic s).haltOut = s.halt ∧ (diagnostic s).causeOut = causeCode s.cause ∧
    (diagnostic s).fpcOut = s.fpc ∧ (diagnostic s).finfoOut = s.finfo) ∧
  causeCode .none = 0 ∧ causeCode .stackOverflow = 1 ∧ causeCode .stackUnderflow = 2 ∧ causeCode .memOutOfBounds = 3 ∧
  causeCode .fetchOutOfBounds = 4 ∧ causeCode .keyIndexRange = 5

/-- 10_state.md section 10 (R34): `rnd_in` is read only by CXNN; every other instruction does the same whatever its level. -/
def Obligations.RandomByteReachesOnlyRandom : Prop :=
  ∀ (i : Instr) (s : State) (r : Byte), (∀ x nn, i ≠ .rnd x nn) →
    exec i { s with env := { s.env with rndIn := r } } =
      mapNext (fun t => { t with env := { t.env with rndIn := r } }) (exec i s)

/-- 10_state.md section 5 (R27): `DT` is read by FX07 only and `ST` by no instruction. An instruction that does not write the
timer does the same whatever it holds and keeps it; one that writes it gives the same state whatever it held. -/
def Obligations.TimersAreReadOnlyWhereNamed : Prop :=
  (∀ (i : Instr) (s : State) (v : Byte), (∀ x, i ≠ .ldVdt x) → (∀ x, i ≠ .ldDtv x) →
    exec i { s with dt := v } = mapNext (fun t => { t with dt := v }) (exec i s)) ∧
  (∀ (i : Instr) (s : State) (v : Byte), (∀ x, i ≠ .ldStv x) →
    exec i { s with st := v } = mapNext (fun t => { t with st := v }) (exec i s)) ∧
  ∀ (x : Nibble) (s : State) (v : Byte),
    exec (.ldDtv x) { s with dt := v } = exec (.ldDtv x) s ∧ exec (.ldStv x) { s with st := v } = exec (.ldStv x) s

/-- 10_state.md section 7 (R30): `K` is read by EX9E, EXA1 and FX0A only, `KP` by FX0A only. -/
def Obligations.KeySamplesAreReadOnlyByKeyInstructions : Prop :=
  (∀ (i : Instr) (s : State) (v : BitVec 16), (∀ x, i ≠ .skp x) → (∀ x, i ≠ .sknp x) → (∀ x, i ≠ .wkr x) →
    exec i { s with k := v } = mapNext (fun t => { t with k := v }) (exec i s)) ∧
  ∀ (i : Instr) (s : State) (v : BitVec 16), (∀ x, i ≠ .wkr x) →
    exec i { s with kp := v } = mapNext (fun t => { t with kp := v }) (exec i s)

/-- 70_reset_and_hazards.md section 2 (R204): the first min(L, 3584) bytes of the image go to 0x200 upwards and nothing else
changes; the load is permitted once, after reset and before the first cycle (the refusal afterwards is the model's, log 19; reset and
load as functions of the host, log 25). -/
def Obligations.LoadPlacesTheImageOnce : Prop :=
  (∀ (image : List Byte) (s : State), s.env.loadOpen = true → ∃ m : Memory,
    hostLoad image s = .next { s with mem := m, env := { s.env with loadOpen := false } } ∧
    (∀ (j : Nat) (h : j < image.length), j < 3584 → m.read (0x200 + j) = image[j]'h) ∧
    ∀ a : Nat, a < 0x200 ∨ 0x200 + min image.length 3584 ≤ a → m.read a = s.mem.read a) ∧
  (∀ (image : List Byte) (s : State), s.env.loadOpen = false → hostLoad image s = .refused .loadNotPermitted) ∧
  State.reset.env.loadOpen = true ∧ (∀ s : State, (hostReset s).env.loadOpen = true) ∧
  ∀ s t : State, step s = .next t → t.env.loadOpen = false
end

