-- ==== Sys2Proof/Laws/State.lean ====
section
/-! SUPPORT. One lemma per field per update of the state, each true by rfl, so that no proof unfolds a record update. -/

namespace Sys2Proof.Machine

/-! ## `State.setReg` -/

@[simp] theorem State.setReg_x (s : State) (r : Nibble) (v : Byte) : (s.setReg r v).x = s.x.set r.toNat v r.isLt := rfl
@[simp] theorem State.setReg_pc (s : State) (r : Nibble) (v : Byte) : (s.setReg r v).pc = s.pc := rfl
@[simp] theorem State.setReg_i (s : State) (r : Nibble) (v : Byte) : (s.setReg r v).i = s.i := rfl
@[simp] theorem State.setReg_stk (s : State) (r : Nibble) (v : Byte) : (s.setReg r v).stk = s.stk := rfl
@[simp] theorem State.setReg_sp (s : State) (r : Nibble) (v : Byte) : (s.setReg r v).sp = s.sp := rfl
@[simp] theorem State.setReg_dt (s : State) (r : Nibble) (v : Byte) : (s.setReg r v).dt = s.dt := rfl
@[simp] theorem State.setReg_st (s : State) (r : Nibble) (v : Byte) : (s.setReg r v).st = s.st := rfl
@[simp] theorem State.setReg_mem (s : State) (r : Nibble) (v : Byte) : (s.setReg r v).mem = s.mem := rfl
@[simp] theorem State.setReg_fb (s : State) (r : Nibble) (v : Byte) : (s.setReg r v).fb = s.fb := rfl
@[simp] theorem State.setReg_k (s : State) (r : Nibble) (v : Byte) : (s.setReg r v).k = s.k := rfl
@[simp] theorem State.setReg_kp (s : State) (r : Nibble) (v : Byte) : (s.setReg r v).kp = s.kp := rfl
@[simp] theorem State.setReg_halt (s : State) (r : Nibble) (v : Byte) : (s.setReg r v).halt = s.halt := rfl
@[simp] theorem State.setReg_cause (s : State) (r : Nibble) (v : Byte) : (s.setReg r v).cause = s.cause := rfl
@[simp] theorem State.setReg_fpc (s : State) (r : Nibble) (v : Byte) : (s.setReg r v).fpc = s.fpc := rfl
@[simp] theorem State.setReg_finfo (s : State) (r : Nibble) (v : Byte) : (s.setReg r v).finfo = s.finfo := rfl
@[simp] theorem State.setReg_env (s : State) (r : Nibble) (v : Byte) : (s.setReg r v).env = s.env := rfl

/-! ## The widths of `pc` and `I`, where their modulus appears -/

@[simp] theorem two_pow_pcWidth : 2 ^ pcWidth = 65536 := rfl
@[simp] theorem two_pow_iWidth : 2 ^ iWidth = 65536 := rfl

/-! ## `nextInsn` and `prevInsn` -/

@[simp] theorem nextInsn_eq (pc : BitVec pcWidth) : nextInsn pc = pc + 2 := rfl
@[simp] theorem prevInsn_eq (pc : BitVec pcWidth) : prevInsn pc = pc - 2 := rfl

/-! ## `State.skipIf` -/

@[simp] theorem State.skipIf_x (s : State) (c : Bool) : (s.skipIf c).x = s.x := rfl
@[simp] theorem State.skipIf_pc (s : State) (c : Bool) : (s.skipIf c).pc = if c then s.pc + 2 else s.pc := rfl
@[simp] theorem State.skipIf_i (s : State) (c : Bool) : (s.skipIf c).i = s.i := rfl
@[simp] theorem State.skipIf_stk (s : State) (c : Bool) : (s.skipIf c).stk = s.stk := rfl
@[simp] theorem State.skipIf_sp (s : State) (c : Bool) : (s.skipIf c).sp = s.sp := rfl
@[simp] theorem State.skipIf_dt (s : State) (c : Bool) : (s.skipIf c).dt = s.dt := rfl
@[simp] theorem State.skipIf_st (s : State) (c : Bool) : (s.skipIf c).st = s.st := rfl
@[simp] theorem State.skipIf_mem (s : State) (c : Bool) : (s.skipIf c).mem = s.mem := rfl
@[simp] theorem State.skipIf_fb (s : State) (c : Bool) : (s.skipIf c).fb = s.fb := rfl
@[simp] theorem State.skipIf_k (s : State) (c : Bool) : (s.skipIf c).k = s.k := rfl
@[simp] theorem State.skipIf_kp (s : State) (c : Bool) : (s.skipIf c).kp = s.kp := rfl
@[simp] theorem State.skipIf_halt (s : State) (c : Bool) : (s.skipIf c).halt = s.halt := rfl
@[simp] theorem State.skipIf_cause (s : State) (c : Bool) : (s.skipIf c).cause = s.cause := rfl
@[simp] theorem State.skipIf_fpc (s : State) (c : Bool) : (s.skipIf c).fpc = s.fpc := rfl
@[simp] theorem State.skipIf_finfo (s : State) (c : Bool) : (s.skipIf c).finfo = s.finfo := rfl
@[simp] theorem State.skipIf_env (s : State) (c : Bool) : (s.skipIf c).env = s.env := rfl

/-! ## `raise` -/

@[simp] theorem raise_x (e : Cause) (a : Word) (n : Info) (s : State) : (raise e a n s).x = s.x := rfl
@[simp] theorem raise_pc (e : Cause) (a : Word) (n : Info) (s : State) : (raise e a n s).pc = s.pc := rfl
@[simp] theorem raise_i (e : Cause) (a : Word) (n : Info) (s : State) : (raise e a n s).i = s.i := rfl
@[simp] theorem raise_stk (e : Cause) (a : Word) (n : Info) (s : State) : (raise e a n s).stk = s.stk := rfl
@[simp] theorem raise_sp (e : Cause) (a : Word) (n : Info) (s : State) : (raise e a n s).sp = s.sp := rfl
@[simp] theorem raise_dt (e : Cause) (a : Word) (n : Info) (s : State) : (raise e a n s).dt = s.dt := rfl
@[simp] theorem raise_st (e : Cause) (a : Word) (n : Info) (s : State) : (raise e a n s).st = s.st := rfl
@[simp] theorem raise_mem (e : Cause) (a : Word) (n : Info) (s : State) : (raise e a n s).mem = s.mem := rfl
@[simp] theorem raise_fb (e : Cause) (a : Word) (n : Info) (s : State) : (raise e a n s).fb = s.fb := rfl
@[simp] theorem raise_k (e : Cause) (a : Word) (n : Info) (s : State) : (raise e a n s).k = s.k := rfl
@[simp] theorem raise_kp (e : Cause) (a : Word) (n : Info) (s : State) : (raise e a n s).kp = s.kp := rfl
@[simp] theorem raise_halt (e : Cause) (a : Word) (n : Info) (s : State) : (raise e a n s).halt = true := rfl
@[simp] theorem raise_cause (e : Cause) (a : Word) (n : Info) (s : State) : (raise e a n s).cause = e := rfl
@[simp] theorem raise_fpc (e : Cause) (a : Word) (n : Info) (s : State) : (raise e a n s).fpc = a := rfl
@[simp] theorem raise_finfo (e : Cause) (a : Word) (n : Info) (s : State) : (raise e a n s).finfo = n := rfl
@[simp] theorem raise_env (e : Cause) (a : Word) (n : Info) (s : State) : (raise e a n s).env = s.env := rfl

/-! ## `raiseExec` -/

@[simp] theorem raiseExec_x (e : Cause) (n : Info) (s : State) : (raiseExec e n s).x = s.x := rfl
@[simp] theorem raiseExec_pc (e : Cause) (n : Info) (s : State) : (raiseExec e n s).pc = s.pc := rfl
@[simp] theorem raiseExec_i (e : Cause) (n : Info) (s : State) : (raiseExec e n s).i = s.i := rfl
@[simp] theorem raiseExec_stk (e : Cause) (n : Info) (s : State) : (raiseExec e n s).stk = s.stk := rfl
@[simp] theorem raiseExec_sp (e : Cause) (n : Info) (s : State) : (raiseExec e n s).sp = s.sp := rfl
@[simp] theorem raiseExec_dt (e : Cause) (n : Info) (s : State) : (raiseExec e n s).dt = s.dt := rfl
@[simp] theorem raiseExec_st (e : Cause) (n : Info) (s : State) : (raiseExec e n s).st = s.st := rfl
@[simp] theorem raiseExec_mem (e : Cause) (n : Info) (s : State) : (raiseExec e n s).mem = s.mem := rfl
@[simp] theorem raiseExec_fb (e : Cause) (n : Info) (s : State) : (raiseExec e n s).fb = s.fb := rfl
@[simp] theorem raiseExec_k (e : Cause) (n : Info) (s : State) : (raiseExec e n s).k = s.k := rfl
@[simp] theorem raiseExec_kp (e : Cause) (n : Info) (s : State) : (raiseExec e n s).kp = s.kp := rfl
@[simp] theorem raiseExec_halt (e : Cause) (n : Info) (s : State) : (raiseExec e n s).halt = true := rfl
@[simp] theorem raiseExec_cause (e : Cause) (n : Info) (s : State) : (raiseExec e n s).cause = e := rfl
@[simp] theorem raiseExec_fpc (e : Cause) (n : Info) (s : State) : (raiseExec e n s).fpc = s.pc - 2 := rfl
@[simp] theorem raiseExec_finfo (e : Cause) (n : Info) (s : State) : (raiseExec e n s).finfo = n := rfl
@[simp] theorem raiseExec_env (e : Cause) (n : Info) (s : State) : (raiseExec e n s).env = s.env := rfl

/-! ## `raiseFetch` -/

@[simp] theorem raiseFetch_x (s : State) : (raiseFetch s).x = s.x := rfl
@[simp] theorem raiseFetch_pc (s : State) : (raiseFetch s).pc = s.pc := rfl
@[simp] theorem raiseFetch_i (s : State) : (raiseFetch s).i = s.i := rfl
@[simp] theorem raiseFetch_stk (s : State) : (raiseFetch s).stk = s.stk := rfl
@[simp] theorem raiseFetch_sp (s : State) : (raiseFetch s).sp = s.sp := rfl
@[simp] theorem raiseFetch_dt (s : State) : (raiseFetch s).dt = s.dt := rfl
@[simp] theorem raiseFetch_st (s : State) : (raiseFetch s).st = s.st := rfl
@[simp] theorem raiseFetch_mem (s : State) : (raiseFetch s).mem = s.mem := rfl
@[simp] theorem raiseFetch_fb (s : State) : (raiseFetch s).fb = s.fb := rfl
@[simp] theorem raiseFetch_k (s : State) : (raiseFetch s).k = s.k := rfl
@[simp] theorem raiseFetch_kp (s : State) : (raiseFetch s).kp = s.kp := rfl
@[simp] theorem raiseFetch_halt (s : State) : (raiseFetch s).halt = true := rfl
@[simp] theorem raiseFetch_cause (s : State) : (raiseFetch s).cause = .fetchOutOfBounds := rfl
@[simp] theorem raiseFetch_fpc (s : State) : (raiseFetch s).fpc = s.pc := rfl
@[simp] theorem raiseFetch_finfo (s : State) : (raiseFetch s).finfo = s.pc.setWidth 17 := rfl
@[simp] theorem raiseFetch_env (s : State) : (raiseFetch s).env = s.env := rfl

/-! ## `drivePorts` -/

@[simp] theorem drivePorts_x (s : State) : (drivePorts s).x = s.x := rfl
@[simp] theorem drivePorts_pc (s : State) : (drivePorts s).pc = s.pc := rfl
@[simp] theorem drivePorts_i (s : State) : (drivePorts s).i = s.i := rfl
@[simp] theorem drivePorts_stk (s : State) : (drivePorts s).stk = s.stk := rfl
@[simp] theorem drivePorts_sp (s : State) : (drivePorts s).sp = s.sp := rfl
@[simp] theorem drivePorts_dt (s : State) : (drivePorts s).dt = s.dt := rfl
@[simp] theorem drivePorts_st (s : State) : (drivePorts s).st = s.st := rfl
@[simp] theorem drivePorts_mem (s : State) : (drivePorts s).mem = s.mem := rfl
@[simp] theorem drivePorts_fb (s : State) : (drivePorts s).fb = s.fb := rfl
@[simp] theorem drivePorts_k (s : State) : (drivePorts s).k = s.k := rfl
@[simp] theorem drivePorts_kp (s : State) : (drivePorts s).kp = s.kp := rfl
@[simp] theorem drivePorts_halt (s : State) : (drivePorts s).halt = s.halt := rfl
@[simp] theorem drivePorts_cause (s : State) : (drivePorts s).cause = s.cause := rfl
@[simp] theorem drivePorts_fpc (s : State) : (drivePorts s).fpc = s.fpc := rfl
@[simp] theorem drivePorts_finfo (s : State) : (drivePorts s).finfo = s.finfo := rfl
@[simp] theorem drivePorts_env (s : State) : (drivePorts s).env = s.env.drive := rfl

/-! ## `sample` -/

@[simp] theorem sample_x (s : State) : (sample s).x = s.x := rfl
@[simp] theorem sample_pc (s : State) : (sample s).pc = s.pc := rfl
@[simp] theorem sample_i (s : State) : (sample s).i = s.i := rfl
@[simp] theorem sample_stk (s : State) : (sample s).stk = s.stk := rfl
@[simp] theorem sample_sp (s : State) : (sample s).sp = s.sp := rfl
@[simp] theorem sample_dt (s : State) : (sample s).dt = s.dt := rfl
@[simp] theorem sample_st (s : State) : (sample s).st = s.st := rfl
@[simp] theorem sample_mem (s : State) : (sample s).mem = s.mem := rfl
@[simp] theorem sample_fb (s : State) : (sample s).fb = s.fb := rfl
@[simp] theorem sample_k (s : State) : (sample s).k = s.env.keyIn := rfl
@[simp] theorem sample_kp (s : State) : (sample s).kp = s.k := rfl
@[simp] theorem sample_halt (s : State) : (sample s).halt = s.halt := rfl
@[simp] theorem sample_cause (s : State) : (sample s).cause = s.cause := rfl
@[simp] theorem sample_fpc (s : State) : (sample s).fpc = s.fpc := rfl
@[simp] theorem sample_finfo (s : State) : (sample s).finfo = s.finfo := rfl
@[simp] theorem sample_env (s : State) : (sample s).env = { s.env with loadOpen := false } := rfl

/-! ## `advance` -/

@[simp] theorem advance_x (s : State) : (advance s).x = s.x := rfl
@[simp] theorem advance_pc (s : State) : (advance s).pc = s.pc + 2 := rfl
@[simp] theorem advance_i (s : State) : (advance s).i = s.i := rfl
@[simp] theorem advance_stk (s : State) : (advance s).stk = s.stk := rfl
@[simp] theorem advance_sp (s : State) : (advance s).sp = s.sp := rfl
@[simp] theorem advance_dt (s : State) : (advance s).dt = s.dt := rfl
@[simp] theorem advance_st (s : State) : (advance s).st = s.st := rfl
@[simp] theorem advance_mem (s : State) : (advance s).mem = s.mem := rfl
@[simp] theorem advance_fb (s : State) : (advance s).fb = s.fb := rfl
@[simp] theorem advance_k (s : State) : (advance s).k = s.k := rfl
@[simp] theorem advance_kp (s : State) : (advance s).kp = s.kp := rfl
@[simp] theorem advance_halt (s : State) : (advance s).halt = s.halt := rfl
@[simp] theorem advance_cause (s : State) : (advance s).cause = s.cause := rfl
@[simp] theorem advance_fpc (s : State) : (advance s).fpc = s.fpc := rfl
@[simp] theorem advance_finfo (s : State) : (advance s).finfo = s.finfo := rfl
@[simp] theorem advance_env (s : State) : (advance s).env = s.env := rfl

/-! ## `tickWhen` -/

@[simp] theorem tickWhen_x (b : Bool) (s : State) : (tickWhen b s).x = s.x := rfl
@[simp] theorem tickWhen_pc (b : Bool) (s : State) : (tickWhen b s).pc = s.pc := rfl
@[simp] theorem tickWhen_i (b : Bool) (s : State) : (tickWhen b s).i = s.i := rfl
@[simp] theorem tickWhen_stk (b : Bool) (s : State) : (tickWhen b s).stk = s.stk := rfl
@[simp] theorem tickWhen_sp (b : Bool) (s : State) : (tickWhen b s).sp = s.sp := rfl
@[simp] theorem tickWhen_dt (b : Bool) (s : State) : (tickWhen b s).dt = if b then countDown s.dt else s.dt := rfl
@[simp] theorem tickWhen_st (b : Bool) (s : State) : (tickWhen b s).st = if b then countDown s.st else s.st := rfl
@[simp] theorem tickWhen_mem (b : Bool) (s : State) : (tickWhen b s).mem = s.mem := rfl
@[simp] theorem tickWhen_fb (b : Bool) (s : State) : (tickWhen b s).fb = s.fb := rfl
@[simp] theorem tickWhen_k (b : Bool) (s : State) : (tickWhen b s).k = s.k := rfl
@[simp] theorem tickWhen_kp (b : Bool) (s : State) : (tickWhen b s).kp = s.kp := rfl
@[simp] theorem tickWhen_halt (b : Bool) (s : State) : (tickWhen b s).halt = s.halt := rfl
@[simp] theorem tickWhen_cause (b : Bool) (s : State) : (tickWhen b s).cause = s.cause := rfl
@[simp] theorem tickWhen_fpc (b : Bool) (s : State) : (tickWhen b s).fpc = s.fpc := rfl
@[simp] theorem tickWhen_finfo (b : Bool) (s : State) : (tickWhen b s).finfo = s.finfo := rfl
@[simp] theorem tickWhen_env (b : Bool) (s : State) : (tickWhen b s).env = { s.env with refresh := if b then some (frameOut s) else s.env.refresh } := rfl

/-! ## The flag and the result before it -/

@[simp] theorem State.setFlag_eq (s : State) (f : Bool) : s.setFlag f = s.setReg flagReg (if f then 1 else 0) := rfl

@[simp] theorem State.setResultAndFlag_eq (s : State) (r : Nibble) (v : Byte) (f : Bool) :
    s.setResultAndFlag r v f = (s.setReg r v).setReg flagReg (if f then 1 else 0) := rfl

/-! ## The host side -/

@[simp] theorem HostSide.drive_refresh (e : HostSide) : e.drive.refresh = none := rfl
@[simp] theorem HostSide.drive_loadOpen (e : HostSide) : e.drive.loadOpen = e.loadOpen := rfl
@[simp] theorem HostSide.drive_keyIn (e : HostSide) : e.drive.keyIn = e.nextLevels.keyIn := rfl
@[simp] theorem HostSide.drive_rndIn (e : HostSide) : e.drive.rndIn = e.nextLevels.rndIn := rfl
@[simp] theorem HostSide.drive_tickIn (e : HostSide) : e.drive.tickIn = e.nextLevels.tick := rfl
@[simp] theorem HostSide.drive_pending (e : HostSide) : e.drive.pending = e.pending.tail := rfl

/-- Port levels the host has fixed are the ones taken. -/
@[simp] theorem HostSide.nextLevels_cons (e : HostSide) (l : PortLevels) (ls : List PortLevels) (h : e.pending = l :: ls) :
    e.nextLevels = l := by simp [HostSide.nextLevels, h]

end Sys2Proof.Machine
end

