-- ==== Sys2Proof/Laws/Encoding.lean ====
section
/-! SUPPORT. The fields of a value built by a format, and the formats of a value's fields (30_encoding.md R82, R83). -/

namespace Sys2Proof

/-! ## The bits of a format and of a field -/

theorem getLsbD_formatXY (f x y n : Nibble) (i : Nat) : (formatXY f x y n).getLsbD i =
    if i < 4 then n.getLsbD i else if i < 8 then y.getLsbD (i - 4) else if i < 12 then x.getLsbD (i - 8)
    else f.getLsbD (i - 12) := by
  simp only [formatXY, BitVec.getLsbD_cast, BitVec.getLsbD_append, Nat.sub_sub]
  split_ifs <;> first | rfl | omega

theorem getLsbD_formatXK (f x : Nibble) (nn : Byte) (i : Nat) : (formatXK f x nn).getLsbD i =
    if i < 8 then nn.getLsbD i else if i < 12 then x.getLsbD (i - 8) else f.getLsbD (i - 12) := by
  simp only [formatXK, BitVec.getLsbD_cast, BitVec.getLsbD_append, Nat.sub_sub]
  split_ifs <;> first | rfl | omega

theorem getLsbD_formatA (f : Nibble) (nnn : Addr12) (i : Nat) : (formatA f nnn).getLsbD i =
    if i < 12 then nnn.getLsbD i else f.getLsbD (i - 12) := by
  simp only [formatA, BitVec.getLsbD_cast, BitVec.getLsbD_append]

theorem getLsbD_wordOfBytes (hi lo : Byte) (i : Nat) : (wordOfBytes hi lo).getLsbD i =
    if i < 8 then lo.getLsbD i else hi.getLsbD (i - 8) := by
  simp only [wordOfBytes, BitVec.getLsbD_cast, BitVec.getLsbD_append]

theorem getLsbD_fieldF (op : Word) (i : Nat) : (fieldF op).getLsbD i = (decide (i < 4) && op.getLsbD (12 + i)) := by
  simp [fieldF]
theorem getLsbD_fieldX (op : Word) (i : Nat) : (fieldX op).getLsbD i = (decide (i < 4) && op.getLsbD (8 + i)) := by
  simp [fieldX]
theorem getLsbD_fieldY (op : Word) (i : Nat) : (fieldY op).getLsbD i = (decide (i < 4) && op.getLsbD (4 + i)) := by
  simp [fieldY]
theorem getLsbD_fieldN (op : Word) (i : Nat) : (fieldN op).getLsbD i = (decide (i < 4) && op.getLsbD i) := by
  simp [fieldN]
theorem getLsbD_fieldNN (op : Word) (i : Nat) : (fieldNN op).getLsbD i = (decide (i < 8) && op.getLsbD i) := by
  simp [fieldNN]
theorem getLsbD_fieldNNN (op : Word) (i : Nat) : (fieldNNN op).getLsbD i = (decide (i < 12) && op.getLsbD i) := by
  simp [fieldNNN]
theorem getLsbD_highByte (op : Word) (i : Nat) : (highByte op).getLsbD i = (decide (i < 8) && op.getLsbD (8 + i)) := by
  simp [highByte]
theorem getLsbD_lowByte (op : Word) (i : Nat) : (lowByte op).getLsbD i = (decide (i < 8) && op.getLsbD i) := by
  simp [lowByte]

/-! ## The fields of a format -/

@[simp] theorem fieldF_formatXY (f x y n : Nibble) : fieldF (formatXY f x y n) = f := by
  apply BitVec.eq_of_getLsbD_eq; intro i hi; rw [getLsbD_fieldF, getLsbD_formatXY]
  simp [show ¬ 12 + i < 4 by omega, show ¬ 12 + i < 8 by omega, hi]
@[simp] theorem fieldX_formatXY (f x y n : Nibble) : fieldX (formatXY f x y n) = x := by
  apply BitVec.eq_of_getLsbD_eq; intro i hi; rw [getLsbD_fieldX, getLsbD_formatXY]
  simp [show ¬ 8 + i < 4 by omega, show 8 + i < 12 by omega, hi]
@[simp] theorem fieldY_formatXY (f x y n : Nibble) : fieldY (formatXY f x y n) = y := by
  apply BitVec.eq_of_getLsbD_eq; intro i hi; rw [getLsbD_fieldY, getLsbD_formatXY]
  simp [show 4 + i < 8 by omega, hi]
@[simp] theorem fieldN_formatXY (f x y n : Nibble) : fieldN (formatXY f x y n) = n := by
  apply BitVec.eq_of_getLsbD_eq; intro i hi; rw [getLsbD_fieldN, getLsbD_formatXY]; simp [hi]

@[simp] theorem fieldF_formatXK (f x : Nibble) (nn : Byte) : fieldF (formatXK f x nn) = f := by
  apply BitVec.eq_of_getLsbD_eq; intro i hi; rw [getLsbD_fieldF, getLsbD_formatXK]
  simp [show ¬ 12 + i < 8 by omega, hi]
@[simp] theorem fieldX_formatXK (f x : Nibble) (nn : Byte) : fieldX (formatXK f x nn) = x := by
  apply BitVec.eq_of_getLsbD_eq; intro i hi; rw [getLsbD_fieldX, getLsbD_formatXK]
  simp [show 8 + i < 12 by omega, hi]
@[simp] theorem fieldNN_formatXK (f x : Nibble) (nn : Byte) : fieldNN (formatXK f x nn) = nn := by
  apply BitVec.eq_of_getLsbD_eq; intro i hi; rw [getLsbD_fieldNN, getLsbD_formatXK]; simp [hi]

@[simp] theorem fieldF_formatA (f : Nibble) (nnn : Addr12) : fieldF (formatA f nnn) = f := by
  apply BitVec.eq_of_getLsbD_eq; intro i hi; rw [getLsbD_fieldF, getLsbD_formatA]; simp [hi]
@[simp] theorem fieldNNN_formatA (f : Nibble) (nnn : Addr12) : fieldNNN (formatA f nnn) = nnn := by
  apply BitVec.eq_of_getLsbD_eq; intro i hi; rw [getLsbD_fieldNNN, getLsbD_formatA]; simp [hi]

/-! ## The formats of a value's fields -/

@[simp] theorem formatXY_fields (op : Word) : formatXY (fieldF op) (fieldX op) (fieldY op) (fieldN op) = op := by
  apply BitVec.eq_of_getLsbD_eq; intro i hi
  simp only [getLsbD_formatXY, getLsbD_fieldF, getLsbD_fieldX, getLsbD_fieldY, getLsbD_fieldN]
  grind
@[simp] theorem formatXK_fields (op : Word) : formatXK (fieldF op) (fieldX op) (fieldNN op) = op := by
  apply BitVec.eq_of_getLsbD_eq; intro i hi
  simp only [getLsbD_formatXK, getLsbD_fieldF, getLsbD_fieldX, getLsbD_fieldNN]
  grind
@[simp] theorem formatA_fields (op : Word) : formatA (fieldF op) (fieldNNN op) = op := by
  apply BitVec.eq_of_getLsbD_eq; intro i hi
  simp only [getLsbD_formatA, getLsbD_fieldF, getLsbD_fieldNNN]
  grind

@[simp] theorem wordOfBytes_bytes (op : Word) : wordOfBytes (highByte op) (lowByte op) = op := by
  apply BitVec.eq_of_getLsbD_eq; intro i hi
  simp only [getLsbD_wordOfBytes, getLsbD_highByte, getLsbD_lowByte]
  grind
@[simp] theorem highByte_wordOfBytes (hi lo : Byte) : highByte (wordOfBytes hi lo) = hi := by
  apply BitVec.eq_of_getLsbD_eq; intro i h; rw [getLsbD_highByte, getLsbD_wordOfBytes]; simp [h]
@[simp] theorem lowByte_wordOfBytes (hi lo : Byte) : lowByte (wordOfBytes hi lo) = lo := by
  apply BitVec.eq_of_getLsbD_eq; intro i h; rw [getLsbD_lowByte, getLsbD_wordOfBytes]; simp [h]

/-- Big-endian, as a number (20_memory.md R54, 30_encoding.md R81). -/
theorem wordOfBytes_toNat (hi lo : Byte) : (wordOfBytes hi lo).toNat = hi.toNat * 256 + lo.toNat := by
  have h := lo.isLt
  simp only [wordOfBytes, BitVec.toNat_cast, BitVec.toNat_append]
  rw [← Nat.shiftLeft_add_eq_or_of_lt h, Nat.shiftLeft_eq]

/-! ## A row's mask and match as fields: what selecting a row of the opcode map says about `F`, `N` and `NN` -/

theorem fieldF_and (a b : Word) : fieldF (a &&& b) = fieldF a &&& fieldF b := BitVec.extractLsb'_and
theorem fieldN_and (a b : Word) : fieldN (a &&& b) = fieldN a &&& fieldN b := BitVec.extractLsb'_and
theorem fieldNN_and (a b : Word) : fieldNN (a &&& b) = fieldNN a &&& fieldNN b := BitVec.extractLsb'_and

/-- The bits that a mask keeps, checked one by one. -/
theorem and_eq_of_bits (op mask m : Word) (h : ∀ i : Fin 16, (op.getLsbD i && mask.getLsbD i) = m.getLsbD i) :
    op &&& mask = m := by
  apply BitVec.eq_of_getLsbD_eq; intro i hi
  rw [BitVec.getLsbD_and]; exact h ⟨i, hi⟩

/-- Mask F000 fixes `F`. -/
theorem and_F000 (op m : Word) (f : Nibble) (hm : m = formatXK f 0 0) : op &&& 0xF000 = m ↔ fieldF op = f := by
  subst hm
  constructor
  · intro h
    have h1 := congrArg fieldF h
    rwa [fieldF_and, show fieldF 0xF000 = BitVec.allOnes 4 by decide, BitVec.and_allOnes, fieldF_formatXK] at h1
  · rintro rfl
    apply and_eq_of_bits; intro i
    simp only [getLsbD_formatXK, getLsbD_fieldF]; fin_cases i <;> simp

/-- Mask F00F fixes `F` and `N`. -/
theorem and_F00F (op m : Word) (f n : Nibble) (hm : m = formatXY f 0 0 n) :
    op &&& 0xF00F = m ↔ fieldF op = f ∧ fieldN op = n := by
  subst hm
  constructor
  · intro h
    have h1 := congrArg fieldF h
    have h2 := congrArg fieldN h
    rw [fieldF_and, show fieldF 0xF00F = BitVec.allOnes 4 by decide, BitVec.and_allOnes, fieldF_formatXY] at h1
    rw [fieldN_and, show fieldN 0xF00F = BitVec.allOnes 4 by decide, BitVec.and_allOnes, fieldN_formatXY] at h2
    exact ⟨h1, h2⟩
  · rintro ⟨rfl, rfl⟩
    apply and_eq_of_bits; intro i
    simp only [getLsbD_formatXY, getLsbD_fieldF, getLsbD_fieldN]; fin_cases i <;> simp

/-- Mask F0FF fixes `F` and `NN`. -/
theorem and_F0FF (op m : Word) (f : Nibble) (nn : Byte) (hm : m = formatXK f 0 nn) :
    op &&& 0xF0FF = m ↔ fieldF op = f ∧ fieldNN op = nn := by
  subst hm
  constructor
  · intro h
    have h1 := congrArg fieldF h
    have h2 := congrArg fieldNN h
    rw [fieldF_and, show fieldF 0xF0FF = BitVec.allOnes 4 by decide, BitVec.and_allOnes, fieldF_formatXK] at h1
    rw [fieldNN_and, show fieldNN 0xF0FF = BitVec.allOnes 8 by decide, BitVec.and_allOnes, fieldNN_formatXK] at h2
    exact ⟨h1, h2⟩
  · rintro ⟨rfl, rfl⟩
    apply and_eq_of_bits; intro i
    simp only [getLsbD_formatXK, getLsbD_fieldF, getLsbD_fieldNN]; fin_cases i <;> simp

end Sys2Proof
end

