-- ==== Sys2Proof/Laws/Framebuffer.lean ====
section
/-! SUPPORT. The framebuffer cell by cell: a flip, a pixel, a row, a sprite (44_display.md R161). -/

namespace Sys2Proof.Machine

@[simp] theorem cell_clearFb (y x : Nat) : cell clearFb y x = false := by
  unfold cell clearFb
  by_cases h : y < fbH <;> simp [h]

/-- A flip changes its own cell and no other. -/
theorem cell_flipCell (fb : Framebuffer) (y x r c : Nat) (hy : y < fbH) (hx : x < fbW) :
    cell (flipCell fb y x) r c = if r = y ∧ c = x then !cell fb r c else cell fb r c := by
  unfold flipCell cell
  rw [dif_pos hy]
  by_cases hr : r = y
  · subst hr
    simp only [Vector.getElem?_set_self hy, Option.getD_some, Vector.getElem?_eq_getElem hy, BitVec.getLsbD_xor,
      BitVec.getLsbD_twoPow]
    by_cases hc : c = x
    · subst hc; simp [hx]
    · have : ¬ x = c := fun e => hc e.symm
      simp [hc, this]
  · rw [Vector.getElem?_set_ne hy (fun e => hr e.symm)]
    simp [hr]

/-- Whether column `c` is under a set bit of sprite row byte `b` drawn from column `x0`, among its first `k` pixels. -/
def rowSets (x0 : Nat) (b : Byte) (k c : Nat) : Bool := decide (x0 ≤ c ∧ c < x0 + k ∧ c < fbW) && b.getLsbD (7 - (c - x0))

/-- The first `k` pixels of a sprite row. -/
theorem drawPixels_spec (y x0 : Nat) (b : Byte) (acc : Framebuffer × Bool) (hy : y < fbH) (k : Nat) :
    (∀ r c, cell ((List.range k).foldl (drawPixel y x0 b) acc).1 r c = (cell acc.1 r c ^^ (decide (r = y) && rowSets x0 b k c))) ∧
    (((List.range k).foldl (drawPixel y x0 b) acc).2 = true ↔
      acc.2 = true ∨ ∃ c, rowSets x0 b k c = true ∧ cell acc.1 y c = true) := by
  induction k with
  | zero =>
    have none : ∀ c, rowSets x0 b 0 c = false := by
      intro c; simp only [rowSets, Bool.and_eq_false_iff, decide_eq_false_iff_not]; exact .inl (by omega)
    simp [none]
  | succ k ih =>
    rw [List.range_succ, List.foldl_append, List.foldl_cons, List.foldl_nil]
    generalize (List.range k).foldl (drawPixel y x0 b) acc = mid at ih ⊢
    obtain ⟨ih1, ih2⟩ := ih
    unfold drawPixel
    split
    · next h =>
      obtain ⟨hx, hb⟩ := h
      refine ⟨fun r c => ?_, ?_⟩
      · simp only [cell_flipCell _ _ _ _ _ hy hx, ih1, rowSets]
        by_cases hc : c = x0 + k
        · subst hc
          by_cases hr : r = y <;> simp [hr, hx, hb]
        · have : (x0 ≤ c ∧ c < x0 + (k + 1) ∧ c < fbW) ↔ (x0 ≤ c ∧ c < x0 + k ∧ c < fbW) := by omega
          simp [hc, this]
      · simp only [Bool.or_eq_true, ih2, ih1, rowSets]
        constructor
        · rintro ((h | ⟨c, hc, hc'⟩) | h)
          · exact .inl h
          · refine .inr ⟨c, ?_, hc'⟩
            simp only [Bool.and_eq_true, decide_eq_true_eq] at hc ⊢
            exact ⟨by omega, hc.2⟩
          · refine .inr ⟨x0 + k, ?_, ?_⟩
            · simp [hx, hb]
            · simpa using h
        · rintro (h | ⟨c, hc, hc'⟩)
          · exact .inl (.inl h)
          · simp only [Bool.and_eq_true, decide_eq_true_eq] at hc
            by_cases he : c = x0 + k
            · subst he; right; simpa using hc'
            · refine .inl (.inr ⟨c, ?_, hc'⟩)
              simp only [Bool.and_eq_true, decide_eq_true_eq]
              exact ⟨by omega, hc.2⟩
    · next h =>
      have key : ∀ c, rowSets x0 b (k + 1) c = rowSets x0 b k c := by
        intro c
        by_cases hc : c = x0 + k
        · subst hc
          simp only [rowSets]
          by_cases hx : x0 + k < fbW
          · have : b.getLsbD (7 - k) = false := by simpa [hx] using h
            simp [this]
          · simp [hx]
        · have : (x0 ≤ c ∧ c < x0 + (k + 1) ∧ c < fbW) ↔ (x0 ≤ c ∧ c < x0 + k ∧ c < fbW) := by omega
          simp only [rowSets, this]
      simp only [key]
      exact ⟨ih1, ih2⟩

/-- One sprite row. -/
theorem drawRow_spec (y x0 : Nat) (b : Byte) (acc : Framebuffer × Bool) (hy : y < fbH) :
    (∀ r c, cell (drawRow y x0 b acc).1 r c = (cell acc.1 r c ^^ (decide (r = y) && rowSets x0 b 8 c))) ∧
    ((drawRow y x0 b acc).2 = true ↔ acc.2 = true ∨ ∃ c, rowSets x0 b 8 c = true ∧ cell acc.1 y c = true) :=
  drawPixels_spec y x0 b acc hy 8

/-- Whether the cell at row `r`, column `c` is under a set bit of a sprite drawn from row `y`, column `x0`. -/
def bytesSet (x0 y : Nat) (bytes : List Byte) (r c : Nat) : Bool :=
  decide (y ≤ r) && rowSets x0 (bytes.getD (r - y) 0) 8 c

@[simp] theorem rowSets_zero (x0 k c : Nat) : rowSets x0 0#8 k c = false := by simp [rowSets]

/-- The whole sprite: each set bit that is drawn flips its cell, and the collision is that one of them was set. -/
theorem drawRows_spec (x0 : Nat) (bytes : List Byte) (y : Nat) (acc : Framebuffer × Bool) (h : y + bytes.length ≤ fbH) :
    (∀ r c, cell (drawRows x0 y bytes acc).1 r c = (cell acc.1 r c ^^ bytesSet x0 y bytes r c)) ∧
    ((drawRows x0 y bytes acc).2 = true ↔
      acc.2 = true ∨ ∃ r c, bytesSet x0 y bytes r c = true ∧ cell acc.1 r c = true) := by
  induction bytes generalizing y acc with
  | nil => simp [drawRows, bytesSet]
  | cons b bs ih =>
    rw [drawRows]
    simp only [List.length_cons] at h
    obtain ⟨d1, d2⟩ := drawRow_spec y x0 b acc (by omega)
    obtain ⟨i1, i2⟩ := ih (y + 1) (drawRow y x0 b acc) (by omega)
    have split : ∀ r c, bytesSet x0 y (b :: bs) r c = (decide (r = y) && rowSets x0 b 8 c ^^ bytesSet x0 (y + 1) bs r c) := by
      intro r c
      unfold bytesSet
      by_cases hr : r = y
      · subst hr; simp
      · by_cases hlt : y ≤ r
        · have h1 : y + 1 ≤ r := by omega
          have h2 : r - y = (r - (y + 1)) + 1 := by omega
          simp [hr, hlt, h1, h2]
        · have h1 : ¬ y + 1 ≤ r := by omega
          simp [hr, hlt, h1]
    have below : ∀ c, bytesSet x0 (y + 1) bs y c = false := by intro c; simp [bytesSet]
    refine ⟨fun r c => ?_, ?_⟩
    · rw [i1, d1, split, Bool.xor_assoc]
    · rw [i2, d2]
      constructor
      · rintro ((h | ⟨c, hc, hc'⟩) | ⟨r, c, hc, hc'⟩)
        · exact .inl h
        · exact .inr ⟨y, c, by rw [split, below]; simp [hc], hc'⟩
        · have hr : r ≠ y := by rintro rfl; rw [below] at hc; exact absurd hc (by simp)
          refine .inr ⟨r, c, by rw [split]; simp [hr, hc], ?_⟩
          rw [d1] at hc'; simpa [hr] using hc'
      · rintro (h | ⟨r, c, hc, hc'⟩)
        · exact .inl (.inl h)
        · rw [split] at hc
          by_cases hr : r = y
          · subst hr; rw [below] at hc
            exact .inl (.inr ⟨c, by simpa using hc, hc'⟩)
          · refine .inr ⟨r, c, by simpa [hr] using hc, ?_⟩
            rw [d1]; simpa [hr] using hc'

end Sys2Proof.Machine
end

