-- ==== Sys2Proof/Laws/Memory.lean ====
section
/-! SUPPORT. Memory: a byte read after a write, the canonical form, and runs of bytes. -/

namespace Sys2Proof.Machine

@[simp] theorem read_nil (a : Nat) : Memory.read [] a = resetByte a := rfl

theorem read_erase (m : Memory) (a b : Nat) : (m.erase a).read b = if b = a then resetByte b else m.read b := by
  induction m with
  | nil => simp [Memory.erase]
  | cons c m ih =>
    obtain ⟨k, w⟩ := c
    simp only [Memory.erase]
    by_cases h : a = k
    · subst h; rw [if_pos rfl, ih]
      by_cases hb : b = a <;> simp [Memory.read, hb]
    · rw [if_neg h]
      by_cases hb : b = k
      · have : ¬ b = a := fun e => h (e ▸ hb)
        simp [Memory.read, hb]; intro e; exact absurd e.symm h
      · simp [Memory.read, hb, ih]

theorem read_insert (m : Memory) (a b : Nat) (v : Byte) : (m.insert a v).read b = if b = a then v else m.read b := by
  induction m with
  | nil => simp [Memory.insert, Memory.read]
  | cons c m ih =>
    obtain ⟨k, w⟩ := c
    simp only [Memory.insert]
    split
    · by_cases hb : b = a <;> simp [Memory.read, hb]
    · split
      · next h => subst h; by_cases hb : b = a <;> simp [Memory.read, hb]
      · next h1 h2 =>
        by_cases hb : b = k
        · have : ¬ b = a := fun e => h2 (e ▸ hb)
          simp [Memory.read, hb]; intro e; exact absurd e.symm h2
        · simp [Memory.read, hb, ih]

/-- Read after write (20_memory.md R58): the byte written at that cell, every other address as before. -/
theorem read_write (m : Memory) (a b : Nat) (v : Byte) :
    (m.write a v).read b = if b = a ∧ a ≤ addrMax then v else m.read b := by
  unfold Memory.write
  split
  · rw [if_neg]; omega
  · split
    · next h => rw [read_erase]; subst h; by_cases hb : b = a <;> simp [hb]; omega
    · rw [read_insert]; by_cases hb : b = a <;> simp [hb]; omega

/-! ## The canonical form -/

theorem wfFrom_mono {m : Memory} {lo hi : Nat} (h : m.wfFrom hi = true) (le : lo ≤ hi) : m.wfFrom lo = true := by
  cases m with
  | nil => rfl
  | cons c m =>
    obtain ⟨k, w⟩ := c
    simp only [Memory.wfFrom, Bool.and_eq_true, decide_eq_true_eq] at h ⊢
    exact ⟨⟨⟨by omega, h.1.1.2⟩, h.1.2⟩, h.2⟩

theorem wfFrom_erase {m : Memory} {lo : Nat} (a : Nat) (h : m.wfFrom lo = true) : (m.erase a).wfFrom lo = true := by
  induction m generalizing lo with
  | nil => rfl
  | cons c m ih =>
    obtain ⟨k, w⟩ := c
    simp only [Memory.wfFrom, Bool.and_eq_true, decide_eq_true_eq] at h
    simp only [Memory.erase]
    split
    · exact ih (wfFrom_mono h.2 (by omega))
    · simp only [Memory.wfFrom, Bool.and_eq_true, decide_eq_true_eq]
      exact ⟨h.1, ih h.2⟩

theorem wfFrom_insert {m : Memory} {lo a : Nat} {v : Byte} (h : m.wfFrom lo = true) (hlo : lo ≤ a) (ha : a ≤ addrMax)
    (hv : v ≠ resetByte a) : (m.insert a v).wfFrom lo = true := by
  induction m generalizing lo with
  | nil => simp [Memory.insert, Memory.wfFrom, hlo, hv]; omega
  | cons c m ih =>
    obtain ⟨k, w⟩ := c
    have h' := h
    simp only [Memory.wfFrom, Bool.and_eq_true, decide_eq_true_eq, bne_iff_ne, ne_eq] at h'
    simp only [Memory.insert]
    split
    · next hak =>
      simp only [Memory.wfFrom, Bool.and_eq_true, decide_eq_true_eq, bne_iff_ne, ne_eq]
      exact ⟨⟨⟨hlo, ha⟩, hv⟩, ⟨⟨by omega, h'.1.1.2⟩, h'.1.2⟩, h'.2⟩
    · split
      · next hak =>
        subst hak
        simp only [Memory.wfFrom, Bool.and_eq_true, decide_eq_true_eq, bne_iff_ne, ne_eq]
        exact ⟨⟨⟨hlo, ha⟩, hv⟩, h'.2⟩
      · simp only [Memory.wfFrom, Bool.and_eq_true, decide_eq_true_eq, bne_iff_ne, ne_eq]
        exact ⟨h'.1, ih h'.2 (by omega)⟩

/-- A write keeps the canonical form. -/
theorem wf_write {m : Memory} (a : Nat) (v : Byte) (h : m.wf = true) : (m.write a v).wf = true := by
  unfold Memory.write
  split
  · exact h
  · split
    · exact wfFrom_erase a h
    · next hv => exact wfFrom_insert h (Nat.zero_le _) (by omega) hv

/-- A run of writes keeps the canonical form. -/
theorem wf_writeSeq (p : AddrPolicy) (bytes : List Byte) {m : Memory} (base : Nat) (h : m.wf = true) :
    (writeSeq p m base bytes).wf = true := by
  induction bytes generalizing m base with
  | nil => exact h
  | cons b bs ih => exact ih (base + 1) (wf_write _ _ h)

/-- In canonical form an address below every listed one reads as its reset contents. -/
theorem read_eq_resetByte_of_lt {m : Memory} {lo a : Nat} (h : m.wfFrom lo = true) (ha : a < lo) :
    m.read a = resetByte a := by
  induction m generalizing lo with
  | nil => rfl
  | cons c m ih =>
    obtain ⟨k, w⟩ := c
    simp only [Memory.wfFrom, Bool.and_eq_true, decide_eq_true_eq] at h
    rw [Memory.read, if_neg (by omega)]
    exact ih h.2 (by omega)

/-- The canonical form is canonical: two memories in it that read alike are the same list. -/
theorem eq_of_read_eq {m n : Memory} {lo : Nat} (hm : m.wfFrom lo = true) (hn : n.wfFrom lo = true)
    (h : ∀ a, m.read a = n.read a) : m = n := by
  induction m generalizing n lo with
  | nil =>
    cases n with
    | nil => rfl
    | cons c n =>
      obtain ⟨b, w⟩ := c
      have e := h b
      simp only [Memory.wfFrom, Bool.and_eq_true, bne_iff_ne] at hn
      simp only [Memory.read, if_true] at e
      exact absurd e.symm hn.1.2
  | cons c m ih =>
    obtain ⟨a, v⟩ := c
    simp only [Memory.wfFrom, Bool.and_eq_true, decide_eq_true_eq, bne_iff_ne] at hm
    cases n with
    | nil =>
      have e := h a
      simp only [Memory.read, if_true] at e
      exact absurd e hm.1.2
    | cons d n =>
      obtain ⟨b, w⟩ := d
      simp only [Memory.wfFrom, Bool.and_eq_true, decide_eq_true_eq, bne_iff_ne] at hn
      have below : ∀ {l : Memory} {c x : Nat}, l.wfFrom (c + 1) = true → x ≤ c → l.read x = resetByte x :=
        fun hl hx => read_eq_resetByte_of_lt hl (Nat.lt_succ_of_le hx)
      have hab : a = b := by
        rcases Nat.lt_trichotomy a b with hlt | he | hlt
        · have e := h a
          rw [Memory.read, if_pos rfl, Memory.read, if_neg (by omega), below hn.2 (by omega)] at e
          exact absurd e hm.1.2
        · exact he
        · have e := h b
          rw [Memory.read, if_neg (by omega), Memory.read, if_pos rfl, below hm.2 (by omega)] at e
          exact absurd e.symm hn.1.2
      subst hab
      have hv : v = w := by have e := h a; rwa [Memory.read, if_pos rfl, Memory.read, if_pos rfl] at e
      subst hv
      refine congrArg _ (ih hm.2 hn.2 fun x => ?_)
      have e := h x
      by_cases hx : x = a
      · subst hx; rw [below hm.2 (Nat.le_refl _), below hn.2 (Nat.le_refl _)]
      · rwa [Memory.read, if_neg hx, Memory.read, if_neg hx] at e

/-! ## Runs of bytes -/

/-- A run of writes inside memory: the bytes of the run at its addresses, every other address as before. -/
theorem read_writeSeq (bytes : List Byte) (m : Memory) (base a : Nat) (h : base + bytes.length ≤ memSize) :
    (writeSeq .fault m base bytes).read a =
      if h : base ≤ a ∧ a < base + bytes.length then bytes[a - base]'(by omega) else m.read a := by
  induction bytes generalizing m base with
  | nil => simp [writeSeq]
  | cons b bs ih =>
    simp only [List.length_cons, memSize] at h
    have hb : base ≤ addrMax := by simp only [addrMax]; omega
    rw [writeSeq, ih _ _ (by simp only [memSize]; omega), read_write]
    by_cases h1 : base + 1 ≤ a ∧ a < base + 1 + bs.length
    · have h2 : base ≤ a ∧ a < base + (b :: bs).length := by simp only [List.length_cons]; omega
      rw [dif_pos h1, dif_pos h2]
      have : a - base = (a - (base + 1)) + 1 := by omega
      simp [this]
    · rw [dif_neg h1]
      by_cases h3 : a = base
      · subst h3; simp [cellOf, hb]
      · rw [if_neg (by simp [cellOf]; omega), dif_neg (by simp only [List.length_cons]; omega)]

@[simp] theorem readSeq_length (p : AddrPolicy) (m : Memory) (base n : Nat) : (readSeq p m base n).length = n := by
  simp [readSeq]

@[simp] theorem readSeq_getElem (m : Memory) (base n j : Nat) (h : j < (readSeq .fault m base n).length) :
    (readSeq .fault m base n)[j] = m.read (base + j) := by
  simp [readSeq, cellOf]

/-! ## The bounds check (20_memory.md R61, R66) -/

theorem lowestInvalid_eq_none (base n : Nat) : lowestInvalid .fault base n = none ↔ n = 0 ∨ base + n ≤ memSize := by
  simp only [lowestInvalid, List.find?_eq_none, List.mem_range'_1, outOfBounds, decide_eq_true_eq, memSize, addrMax]
  constructor
  · intro h
    by_cases hn : n = 0
    · exact .inl hn
    · have := h (base + n - 1) (by omega); omega
  · rintro h a ⟨h1, h2⟩; omega

theorem lowestInvalid_eq_max (base n : Nat) (hn : n ≠ 0) (h : memSize < base + n) :
    lowestInvalid .fault base n = some (max base 0x1000) := by
  simp only [memSize] at h
  induction n generalizing base with
  | zero => exact absurd rfl hn
  | succ n ih =>
    rw [lowestInvalid, List.range'_succ, List.find?_cons]
    by_cases hb : addrMax < base
    · have : outOfBounds .fault base = true := by simp [outOfBounds, hb]
      simp only [addrMax] at hb
      rw [this]; simp; omega
    · have h0 : outOfBounds .fault base = false := by simp only [outOfBounds]; exact decide_eq_false hb
      rw [h0]
      simp only [addrMax] at hb
      have := ih (base + 1) (by omega) (by omega)
      rw [lowestInvalid] at this
      rw [this, show max (base + 1) 0x1000 = max base 0x1000 by omega]

end Sys2Proof.Machine
end

