-- ==== Sys2Proof/Laws/Registers.lean ====
section
/-! SUPPORT. Reading and writing registers: what every write leaves, said through `State.reg`. -/

namespace Sys2Proof.Machine

theorem nibble_eq_of_toNat {a b : Nibble} : a.toNat = b.toNat ↔ a = b := ⟨BitVec.eq_of_toNat_eq, congrArg _⟩

/-- A register after a write to the file. -/
theorem getElem_set_nibble (v : Vector Byte nRegs) (r q : Nibble) (w : Byte) :
    (v.set r.toNat w r.isLt)[q.toNat]'q.isLt = if q = r then w else v[q.toNat]'q.isLt := by
  rw [Vector.getElem_set]
  by_cases h : r.toNat = q.toNat
  · simp [h, (nibble_eq_of_toNat.mp h).symm]
  · have : q ≠ r := fun e => h (e ▸ rfl)
    simp [h, this]

@[simp] theorem State.setReg_reg (s : State) (r q : Nibble) (v : Byte) :
    (s.setReg r v).reg q = if q = r then v else s.reg q := getElem_set_nibble s.x r q v

/-- A register read depends on the register file alone. -/
theorem State.reg_congr {s t : State} (h : t.x = s.x) (r : Nibble) : t.reg r = s.reg r := by
  simp only [State.reg, h]

@[simp] theorem State.skipIf_reg (s : State) (c : Bool) (r : Nibble) : (s.skipIf c).reg r = s.reg r := rfl
@[simp] theorem raise_reg (e : Cause) (a : Word) (n : Info) (s : State) (r : Nibble) : (raise e a n s).reg r = s.reg r := rfl
@[simp] theorem raiseExec_reg (e : Cause) (n : Info) (s : State) (r : Nibble) : (raiseExec e n s).reg r = s.reg r := rfl

@[simp] theorem State.firstRegs_length (s : State) (n : Nat) (h : n ≤ 16) : (s.firstRegs n).length = n := by
  simp [State.firstRegs]; omega

/-- What `x[j]`, `x[j + 1]`, … hold after they are filled, and that the others are kept. -/
theorem fillRegs_getElem (bytes : List Byte) (v : Vector Byte nRegs) (j q : Nat) (hq : q < nRegs) :
    (fillRegs v j bytes)[q] = if h : j ≤ q ∧ q < j + bytes.length then bytes[q - j]'(by omega) else v[q] := by
  induction bytes generalizing v j with
  | nil => simp [fillRegs]
  | cons b bs ih =>
    rw [fillRegs, ih]
    by_cases h : j + 1 ≤ q ∧ q < j + 1 + bs.length
    · have h' : j ≤ q ∧ q < j + (b :: bs).length := by simp only [List.length_cons]; omega
      rw [dif_pos h, dif_pos h']
      have : q - j = (q - (j + 1)) + 1 := by omega
      simp [this]
    · rw [dif_neg h, Vector.getElem_setIfInBounds]
      by_cases hj : j = q
      · subst hj; simp
      · rw [if_neg hj, dif_neg]
        simp only [List.length_cons]; omega

end Sys2Proof.Machine
end

