-- ==== Sys2Proof/Laws/Ops.lean ====
section
/-! SUPPORT. What each shared operation can do, said once: the bounds check, the key index, the call stack, the fetch, the
boundary, the cycle and the step. Proofs cite these instead of unfolding the operations. -/

namespace Sys2Proof.Machine

/-! ## The parameters at their defaults -/

@[simp] theorem params_addrPolicy : params.addrPolicy = .fault := rfl
@[simp] theorem params_subFlag : params.subFlag = .notBorrowGe := rfl
@[simp] theorem params_shiftSrc : params.shiftSrc = .vx := rfl
@[simp] theorem params_ldstIncrementsI : params.ldstIncrementsI = false := rfl
@[simp] theorem params_addISetsVf : params.addISetsVf = false := rfl
@[simp] theorem params_keyIndexPolicy : params.keyIndexPolicy = .fault := rfl
@[simp] theorem params_strictDecode : params.strictDecode = true := rfl
@[simp] theorem params_resetPc : params.resetPc = 0x200 := rfl

/-! ## The bounds check -/

/-- Inside memory (or with no address at all) the instruction goes on. -/
theorem withMemory_ok (n : Nat) (s rest : State) (h : n = 0 ∨ s.i.toNat + n ≤ memSize) : withMemory n s rest = rest := by
  simp only [withMemory, params_addrPolicy, (lowestInvalid_eq_none _ _).mpr h]

/-- Otherwise it raises `MemOutOfBounds` with the lowest invalid address and has no effect. -/
theorem withMemory_bad (n : Nat) (s rest : State) (hn : n ≠ 0) (h : memSize < s.i.toNat + n) :
    withMemory n s rest = raiseExec .memOutOfBounds (BitVec.ofNat 17 (max s.i.toNat 0x1000)) s := by
  simp only [withMemory, params_addrPolicy, lowestInvalid_eq_max _ _ hn h]

theorem withMemory_cases (n : Nat) (s rest : State) :
    withMemory n s rest = rest ∨ ∃ info, withMemory n s rest = raiseExec .memOutOfBounds info s := by
  unfold withMemory; split
  · exact .inr ⟨_, rfl⟩
  · exact .inl rfl

/-! ## The key index -/

theorem withKey_ok (x : Nibble) (s : State) (rest : Nat → State) (h : (s.reg x).toNat ≤ 15) :
    withKey x s rest = rest (s.reg x).toNat := by
  have hk : (s.reg x).toNat < nKeys := Nat.lt_succ_of_le h
  simp only [withKey, params_keyIndexPolicy, keyLine, if_pos hk]

theorem withKey_bad (x : Nibble) (s : State) (rest : Nat → State) (h : 15 < (s.reg x).toNat) :
    withKey x s rest = raiseExec .keyIndexRange ((s.reg x).setWidth 17) s := by
  have hk : ¬ (s.reg x).toNat < nKeys := Nat.not_lt.mpr h
  simp only [withKey, params_keyIndexPolicy, keyLine, if_neg hk]

theorem withKey_cases (x : Nibble) (s : State) (rest : Nat → State) :
    (∃ k, withKey x s rest = rest k) ∨ ∃ info, withKey x s rest = raiseExec .keyIndexRange info s := by
  unfold withKey; split
  · exact .inl ⟨_, rfl⟩
  · exact .inr ⟨_, rfl⟩

/-! ## The call stack -/

theorem push_of_lt (s : State) (v : Word) (h : s.sp.val < stackDepth) :
    s.push v = some { s with stk := s.stk.set s.sp.val v h, sp := ⟨s.sp.val + 1, Nat.succ_lt_succ h⟩ } := by
  simp only [State.push, dif_pos h]

theorem push_of_full (s : State) (v : Word) (h : s.sp.val = stackDepth) : s.push v = none := by
  simp only [State.push, dif_neg (show ¬ s.sp.val < stackDepth by omega)]

theorem pop_of_eq_succ (s : State) (j : Nat) (hj : j < stackDepth) (h : s.sp.val = j + 1) :
    s.pop = some (s.stk[j]'hj, { s with sp := ⟨j, Nat.lt_succ_of_lt hj⟩ }) := by
  have h0 : ¬ s.sp.val = 0 := by omega
  have h1 : s.sp.val - 1 = j := by omega
  simp only [State.pop, dif_neg h0, h1]

theorem pop_of_empty (s : State) (h : s.sp.val = 0) : s.pop = none := by
  simp only [State.pop, dif_pos h]

/-- What a push can do. -/
theorem push_cases (s : State) (v : Word) :
    (s.sp.val = stackDepth ∧ s.push v = none) ∨
    ∃ h : s.sp.val < stackDepth,
      s.push v = some { s with stk := s.stk.set s.sp.val v h, sp := ⟨s.sp.val + 1, Nat.succ_lt_succ h⟩ } := by
  by_cases h : s.sp.val < stackDepth
  · exact .inr ⟨h, push_of_lt s v h⟩
  · have full : s.sp.val = stackDepth := by have := s.sp.isLt; omega
    exact .inl ⟨full, push_of_full s v full⟩

/-- What a pop can do. -/
theorem pop_cases (s : State) :
    (s.sp.val = 0 ∧ s.pop = none) ∨
    ∃ (j : Nat) (h : j < stackDepth), s.sp.val = j + 1 ∧
      s.pop = some (s.stk[j]'h, { s with sp := ⟨j, Nat.lt_succ_of_lt h⟩ }) := by
  rcases hs : s.sp.val with _ | j
  · exact .inl ⟨rfl, pop_of_empty s hs⟩
  · have hj : j < stackDepth := by have := s.sp.isLt; omega
    exact .inr ⟨j, hj, rfl, pop_of_eq_succ s j hj hs⟩

/-! ## The fetch, the boundary, the cycle, the step -/

theorem fetch_ok (s : State) (h : s.pc.toNat ≤ 0xFFE) :
    fetch s = some (wordOfBytes (s.mem.read s.pc.toNat) (s.mem.read (s.pc.toNat + 1))) := by
  have hp : s.pc.toNat + 1 ≤ addrMax := Nat.succ_le_succ h
  simp only [fetch, params_addrPolicy, fetchCells, if_pos hp]

theorem fetch_out_of_bounds (s : State) (h : 0xFFE < s.pc.toNat) : fetch s = none := by
  have hp : ¬ s.pc.toNat + 1 ≤ addrMax := by simp only [addrMax]; omega
  simp only [fetch, params_addrPolicy, fetchCells, if_neg hp]

theorem fetch_eq_none_iff (s : State) : fetch s = none ↔ 0xFFE < s.pc.toNat := by
  constructor
  · intro h
    by_cases hp : s.pc.toNat ≤ 0xFFE
    · rw [fetch_ok s hp] at h; exact absurd h (by simp)
    · omega
  · exact fetch_out_of_bounds s

/-- What the boundary leaves alone, whatever the event. -/
theorem boundary_frame (s : State) :
    (boundary s).x = s.x ∧ (boundary s).pc = s.pc ∧ (boundary s).i = s.i ∧ (boundary s).stk = s.stk ∧
    (boundary s).sp = s.sp ∧ (boundary s).mem = s.mem ∧ (boundary s).fb = s.fb ∧ (boundary s).k = s.k ∧
    (boundary s).kp = s.kp ∧ (boundary s).halt = s.halt ∧ (boundary s).cause = s.cause ∧ (boundary s).fpc = s.fpc ∧
    (boundary s).finfo = s.finfo ∧ (boundary s).env.loadOpen = s.env.loadOpen := by
  unfold boundary; split <;> simp

/-- What a cycle can do: the fetch fails and halts the machine, or the decoded instruction runs with `pc` advanced. -/
theorem cycle_cases (s : State) :
    (0xFFE < s.pc.toNat ∧ cycle s = .next (raiseFetch (sample s))) ∨
    (s.pc.toNat ≤ 0xFFE ∧ ∃ op, cycle s = exec (decode op) (advance (sample s))) := by
  by_cases h : s.pc.toNat ≤ 0xFFE
  · exact .inr ⟨h, _, by rw [cycle, fetch_ok (sample s) h]⟩
  · exact .inl ⟨by omega, by rw [cycle, fetch_out_of_bounds (sample s) (by simpa using h)]⟩

/-- What a step that answers a next state has done: one cycle of a running machine and then the boundary. -/
theorem step_next {s t : State} (h : step s = .next t) :
    s.halt = false ∧ ∃ u, cycle (drivePorts s) = .next u ∧ t = boundary u := by
  unfold step at h
  split at h
  · exact absurd h (by simp)
  · next hh =>
    refine ⟨by simpa using hh, ?_⟩
    cases hc : cycle (drivePorts s) with
    | next u => rw [hc] at h; exact ⟨u, rfl, by simpa [atBoundary] using h.symm⟩
    | fault f => rw [hc] at h; exact absurd h (by simp [atBoundary])
    | refused r => rw [hc] at h; exact absurd h (by simp [atBoundary])

end Sys2Proof.Machine
end

