-- ==== Sys2Proof/Laws/Exec.lean ====
section
/-! SUPPORT. What each instruction that may raise a fatal error can do, said once: its effect, or the error and no effect.
Proofs about every instruction cite these; the other instructions' answers are their one effect, by rfl. -/

namespace Sys2Proof.Machine

theorem execRet_next {s t : State} (h : execRet s = .next t) :
    (s.sp.val = 0 ∧ t = raiseExec .stackUnderflow 0 s) ∨
    ∃ (j : Nat) (hj : j < stackDepth), s.sp.val = j + 1 ∧
      t = { s with sp := ⟨j, Nat.lt_succ_of_lt hj⟩, pc := s.stk[j]'hj } := by
  unfold execRet at h
  rcases pop_cases s with ⟨h0, e⟩ | ⟨j, hj, hs, e⟩ <;> rw [e] at h <;> cases h
  · exact .inl ⟨h0, rfl⟩
  · exact .inr ⟨j, hj, hs, rfl⟩

theorem execCall_next {nnn : Addr12} {s t : State} (h : execCall nnn s = .next t) :
    (s.sp.val = stackDepth ∧ t = raiseExec .stackOverflow 16 s) ∨
    ∃ hs : s.sp.val < stackDepth,
      t = { s with stk := s.stk.set s.sp.val s.pc hs, sp := ⟨s.sp.val + 1, Nat.succ_lt_succ hs⟩, pc := nnn.setWidth 16 } := by
  unfold execCall at h
  rcases push_cases s s.pc with ⟨h0, e⟩ | ⟨hs, e⟩ <;> rw [e] at h <;> cases h
  · exact .inl ⟨h0, rfl⟩
  · exact .inr ⟨hs, rfl⟩

/-- An instruction that checks its addresses first. -/
theorem next_withMemory {n : Nat} {s rest t : State} (h : (.next (withMemory n s rest) : Result) = .next t) :
    t = rest ∨ ∃ info, t = raiseExec .memOutOfBounds info s := by
  cases h; exact withMemory_cases n s rest

/-- An instruction that selects a key line first. -/
theorem next_withKey {x : Nibble} {s t : State} {rest : Nat → State} (h : (.next (withKey x s rest) : Result) = .next t) :
    (∃ k, t = rest k) ∨ ∃ info, t = raiseExec .keyIndexRange info s := by
  cases h; exact withKey_cases x s rest

end Sys2Proof.Machine
end

