-- ==== Sys2Proof/Laws/PerInstr.lean ====
section
/-! SUPPORT. Statements made per instruction. -/

namespace Sys2Proof.Laws.RowOf

open Machine

/-- The encoding of a well-formed instruction selects a row of the opcode map, and that of a `NOP.U` selects none
(30_encoding.md R86, R92). -/
def Statement (i : Instr) : Prop :=
  i.wellFormed = true → (recognised params.strictDecode (encode i) = true ↔ ∀ op, i ≠ .nopU op)

/-- One row suffices. -/
theorem of_row {i : Instr} (r : OpcodeRow) (hr : r ∈ opcodeRows params.strictDecode) (hs : encode i &&& r.mask = r.pattern)
    (hi : ∀ op, i ≠ .nopU op) : Statement i := by
  intro _
  have : recognised params.strictDecode (encode i) = true :=
    List.any_eq_true.mpr ⟨r, hr, by simpa [OpcodeRow.selects] using hs⟩
  exact ⟨fun _ => hi, fun _ => this⟩

theorem cls : Statement .cls :=
  of_row ⟨0xFFFF, 0x00E0⟩ (by decide) (by decide) (by simp)
theorem ret : Statement .ret :=
  of_row ⟨0xFFFF, 0x00EE⟩ (by decide) (by decide) (by simp)
theorem jp (nnn : Addr12) : Statement (.jp nnn) :=
  of_row ⟨0xF000, 0x1000⟩ (by decide) ((and_F000 _ _ 0x1 (by decide)).mpr (fieldF_formatA _ _)) (by simp)
theorem call (nnn : Addr12) : Statement (.call nnn) :=
  of_row ⟨0xF000, 0x2000⟩ (by decide) ((and_F000 _ _ 0x2 (by decide)).mpr (fieldF_formatA _ _)) (by simp)
theorem seI (x : Nibble) (nn : Byte) : Statement (.seI x nn) :=
  of_row ⟨0xF000, 0x3000⟩ (by decide) ((and_F000 _ _ 0x3 (by decide)).mpr (fieldF_formatXK _ _ _)) (by simp)
theorem sneI (x : Nibble) (nn : Byte) : Statement (.sneI x nn) :=
  of_row ⟨0xF000, 0x4000⟩ (by decide) ((and_F000 _ _ 0x4 (by decide)).mpr (fieldF_formatXK _ _ _)) (by simp)
theorem seR (x y : Nibble) : Statement (.seR x y) :=
  of_row ⟨0xF00F, 0x5000⟩ (by decide) ((and_F00F _ _ 0x5 0x0 (by decide)).mpr ⟨fieldF_formatXY _ _ _ _, fieldN_formatXY _ _ _ _⟩) (by simp)
theorem ldI (x : Nibble) (nn : Byte) : Statement (.ldI x nn) :=
  of_row ⟨0xF000, 0x6000⟩ (by decide) ((and_F000 _ _ 0x6 (by decide)).mpr (fieldF_formatXK _ _ _)) (by simp)
theorem addI (x : Nibble) (nn : Byte) : Statement (.addI x nn) :=
  of_row ⟨0xF000, 0x7000⟩ (by decide) ((and_F000 _ _ 0x7 (by decide)).mpr (fieldF_formatXK _ _ _)) (by simp)
theorem ldR (x y : Nibble) : Statement (.ldR x y) :=
  of_row ⟨0xF00F, 0x8000⟩ (by decide) ((and_F00F _ _ 0x8 0x0 (by decide)).mpr ⟨fieldF_formatXY _ _ _ _, fieldN_formatXY _ _ _ _⟩) (by simp)
theorem or (x y : Nibble) : Statement (.or x y) :=
  of_row ⟨0xF00F, 0x8001⟩ (by decide) ((and_F00F _ _ 0x8 0x1 (by decide)).mpr ⟨fieldF_formatXY _ _ _ _, fieldN_formatXY _ _ _ _⟩) (by simp)
theorem and (x y : Nibble) : Statement (.and x y) :=
  of_row ⟨0xF00F, 0x8002⟩ (by decide) ((and_F00F _ _ 0x8 0x2 (by decide)).mpr ⟨fieldF_formatXY _ _ _ _, fieldN_formatXY _ _ _ _⟩) (by simp)
theorem xor (x y : Nibble) : Statement (.xor x y) :=
  of_row ⟨0xF00F, 0x8003⟩ (by decide) ((and_F00F _ _ 0x8 0x3 (by decide)).mpr ⟨fieldF_formatXY _ _ _ _, fieldN_formatXY _ _ _ _⟩) (by simp)
theorem addR (x y : Nibble) : Statement (.addR x y) :=
  of_row ⟨0xF00F, 0x8004⟩ (by decide) ((and_F00F _ _ 0x8 0x4 (by decide)).mpr ⟨fieldF_formatXY _ _ _ _, fieldN_formatXY _ _ _ _⟩) (by simp)
theorem sub (x y : Nibble) : Statement (.sub x y) :=
  of_row ⟨0xF00F, 0x8005⟩ (by decide) ((and_F00F _ _ 0x8 0x5 (by decide)).mpr ⟨fieldF_formatXY _ _ _ _, fieldN_formatXY _ _ _ _⟩) (by simp)
theorem shr (x y : Nibble) : Statement (.shr x y) :=
  of_row ⟨0xF00F, 0x8006⟩ (by decide) ((and_F00F _ _ 0x8 0x6 (by decide)).mpr ⟨fieldF_formatXY _ _ _ _, fieldN_formatXY _ _ _ _⟩) (by simp)
theorem subn (x y : Nibble) : Statement (.subn x y) :=
  of_row ⟨0xF00F, 0x8007⟩ (by decide) ((and_F00F _ _ 0x8 0x7 (by decide)).mpr ⟨fieldF_formatXY _ _ _ _, fieldN_formatXY _ _ _ _⟩) (by simp)
theorem shl (x y : Nibble) : Statement (.shl x y) :=
  of_row ⟨0xF00F, 0x800E⟩ (by decide) ((and_F00F _ _ 0x8 0xE (by decide)).mpr ⟨fieldF_formatXY _ _ _ _, fieldN_formatXY _ _ _ _⟩) (by simp)
theorem sneR (x y : Nibble) : Statement (.sneR x y) :=
  of_row ⟨0xF00F, 0x9000⟩ (by decide) ((and_F00F _ _ 0x9 0x0 (by decide)).mpr ⟨fieldF_formatXY _ _ _ _, fieldN_formatXY _ _ _ _⟩) (by simp)
theorem ldIdx (nnn : Addr12) : Statement (.ldIdx nnn) :=
  of_row ⟨0xF000, 0xA000⟩ (by decide) ((and_F000 _ _ 0xA (by decide)).mpr (fieldF_formatA _ _)) (by simp)
theorem jpV0 (nnn : Addr12) : Statement (.jpV0 nnn) :=
  of_row ⟨0xF000, 0xB000⟩ (by decide) ((and_F000 _ _ 0xB (by decide)).mpr (fieldF_formatA _ _)) (by simp)
theorem rnd (x : Nibble) (nn : Byte) : Statement (.rnd x nn) :=
  of_row ⟨0xF000, 0xC000⟩ (by decide) ((and_F000 _ _ 0xC (by decide)).mpr (fieldF_formatXK _ _ _)) (by simp)
theorem drw (x y n : Nibble) : Statement (.drw x y n) :=
  of_row ⟨0xF000, 0xD000⟩ (by decide) ((and_F000 _ _ 0xD (by decide)).mpr (fieldF_formatXY _ _ _ _)) (by simp)
theorem skp (x : Nibble) : Statement (.skp x) :=
  of_row ⟨0xF0FF, 0xE09E⟩ (by decide) ((and_F0FF _ _ 0xE 0x9E (by decide)).mpr ⟨fieldF_formatXK _ _ _, fieldNN_formatXK _ _ _⟩) (by simp)
theorem sknp (x : Nibble) : Statement (.sknp x) :=
  of_row ⟨0xF0FF, 0xE0A1⟩ (by decide) ((and_F0FF _ _ 0xE 0xA1 (by decide)).mpr ⟨fieldF_formatXK _ _ _, fieldNN_formatXK _ _ _⟩) (by simp)
theorem ldVdt (x : Nibble) : Statement (.ldVdt x) :=
  of_row ⟨0xF0FF, 0xF007⟩ (by decide) ((and_F0FF _ _ 0xF 0x07 (by decide)).mpr ⟨fieldF_formatXK _ _ _, fieldNN_formatXK _ _ _⟩) (by simp)
theorem wkr (x : Nibble) : Statement (.wkr x) :=
  of_row ⟨0xF0FF, 0xF00A⟩ (by decide) ((and_F0FF _ _ 0xF 0x0A (by decide)).mpr ⟨fieldF_formatXK _ _ _, fieldNN_formatXK _ _ _⟩) (by simp)
theorem ldDtv (x : Nibble) : Statement (.ldDtv x) :=
  of_row ⟨0xF0FF, 0xF015⟩ (by decide) ((and_F0FF _ _ 0xF 0x15 (by decide)).mpr ⟨fieldF_formatXK _ _ _, fieldNN_formatXK _ _ _⟩) (by simp)
theorem ldStv (x : Nibble) : Statement (.ldStv x) :=
  of_row ⟨0xF0FF, 0xF018⟩ (by decide) ((and_F0FF _ _ 0xF 0x18 (by decide)).mpr ⟨fieldF_formatXK _ _ _, fieldNN_formatXK _ _ _⟩) (by simp)
theorem addIdx (x : Nibble) : Statement (.addIdx x) :=
  of_row ⟨0xF0FF, 0xF01E⟩ (by decide) ((and_F0FF _ _ 0xF 0x1E (by decide)).mpr ⟨fieldF_formatXK _ _ _, fieldNN_formatXK _ _ _⟩) (by simp)
theorem ldF (x : Nibble) : Statement (.ldF x) :=
  of_row ⟨0xF0FF, 0xF029⟩ (by decide) ((and_F0FF _ _ 0xF 0x29 (by decide)).mpr ⟨fieldF_formatXK _ _ _, fieldNN_formatXK _ _ _⟩) (by simp)
theorem ldB (x : Nibble) : Statement (.ldB x) :=
  of_row ⟨0xF0FF, 0xF033⟩ (by decide) ((and_F0FF _ _ 0xF 0x33 (by decide)).mpr ⟨fieldF_formatXK _ _ _, fieldNN_formatXK _ _ _⟩) (by simp)
theorem ldSt (x : Nibble) : Statement (.ldSt x) :=
  of_row ⟨0xF0FF, 0xF055⟩ (by decide) ((and_F0FF _ _ 0xF 0x55 (by decide)).mpr ⟨fieldF_formatXK _ _ _, fieldNN_formatXK _ _ _⟩) (by simp)
theorem ldLd (x : Nibble) : Statement (.ldLd x) :=
  of_row ⟨0xF0FF, 0xF065⟩ (by decide) ((and_F0FF _ _ 0xF 0x65 (by decide)).mpr ⟨fieldF_formatXK _ _ _, fieldNN_formatXK _ _ _⟩) (by simp)
theorem nopU (op : Word) : Statement (.nopU op) := by
  intro h
  have none : recognised params.strictDecode op = false := (Bool.not_eq_true' _).mp h
  exact ⟨fun some => absurd (none.symm.trans some) Bool.false_ne_true, fun e => absurd rfl (e op)⟩

end Sys2Proof.Laws.RowOf
end

