-- ==== Sys2Proof/Tests/Slice0.lean ====
section
/-! SUPPORT. Tests of the model. Expected results are the vectors of 95_test_vectors.md (their ids stand beside the
tests) or hand calculation from the rules; each runs one step. -/

namespace Sys2Proof.Tests

open Machine

/-! ## The encoding: words written out from 30_encoding.md R83 and R86 -/

theorem test_decode_cls : decode 0b0000000011100000 = .cls := by decide
theorem test_decode_ret : decode 0b0000000011101110 = .ret := by decide
theorem test_decode_jp : decode 0b0001101010111100 = .jp 0xABC := by decide
theorem test_decode_call : decode 0b0010101010111100 = .call 0xABC := by decide
theorem test_decode_seI : decode 0b0011101000000101 = .seI 0xA 0x05 := by decide
theorem test_decode_sneI : decode 0b0100101000000101 = .sneI 0xA 0x05 := by decide
theorem test_decode_seR : decode 0b0101000100100000 = .seR 1 2 := by decide
theorem test_decode_ldI : decode 0b0110101000101111 = .ldI 0xA 0x2F := by decide
theorem test_decode_addI : decode 0b0111000100000101 = .addI 1 5 := by decide
theorem test_decode_ldR : decode 0b1000000100100000 = .ldR 1 2 := by decide
theorem test_decode_or : decode 0b1000000100100001 = .or 1 2 := by decide
theorem test_decode_and : decode 0b1000000100100010 = .and 1 2 := by decide
theorem test_decode_xor : decode 0b1000000100100011 = .xor 1 2 := by decide
theorem test_decode_addR : decode 0b1000000100100100 = .addR 1 2 := by decide
theorem test_decode_sub : decode 0b1000000100100101 = .sub 1 2 := by decide
theorem test_decode_shr : decode 0b1000000100100110 = .shr 1 2 := by decide
theorem test_decode_subn : decode 0b1000000100100111 = .subn 1 2 := by decide
theorem test_decode_shl : decode 0b1000000100101110 = .shl 1 2 := by decide
theorem test_decode_sneR : decode 0b1001000100100000 = .sneR 1 2 := by decide
theorem test_decode_ldIdx : decode 0b1010001011110000 = .ldIdx 0x2F0 := by decide
theorem test_decode_jpV0 : decode 0b1011001100000000 = .jpV0 0x300 := by decide
theorem test_decode_rnd : decode 0b1100001100001111 = .rnd 3 0x0F := by decide
theorem test_decode_drw : decode 0b1101000100100101 = .drw 1 2 5 := by decide
theorem test_decode_skp : decode 0b1110001110011110 = .skp 3 := by decide
theorem test_decode_sknp : decode 0b1110001110100001 = .sknp 3 := by decide
theorem test_decode_ldVdt : decode 0b1111001100000111 = .ldVdt 3 := by decide
theorem test_decode_wkr : decode 0b1111001100001010 = .wkr 3 := by decide
theorem test_decode_ldDtv : decode 0b1111001100010101 = .ldDtv 3 := by decide
theorem test_decode_ldStv : decode 0b1111001100011000 = .ldStv 3 := by decide
theorem test_decode_addIdx : decode 0b1111001100011110 = .addIdx 3 := by decide
theorem test_decode_ldF : decode 0b1111001100101001 = .ldF 3 := by decide
theorem test_decode_ldB : decode 0b1111001100110011 = .ldB 3 := by decide
theorem test_decode_ldSt : decode 0b1111001101010101 = .ldSt 3 := by decide
theorem test_decode_ldLd : decode 0b1111001101100101 = .ldLd 3 := by decide

/-- The unrecognised values of 95_test_vectors.md section 2.1. -/
theorem test_decode_unrecognised :
    ([0x0000, 0x00E1, 0x01E0, 0x0123, 0x5121, 0x8128, 0x812D, 0x812F, 0x912F, 0xE300, 0xE39F, 0xE3A0, 0xF300, 0xF30B,
      0xF375, 0xF385, 0xF3FF, 0xFFFF] : List Word).all (fun op => decode op == .nopU op) = true := by decide

/-- Under `STRICT_DECODE` = false families 5 and 9 ignore N and family 0 matches on the low byte (D11). -/
theorem test_decode_loose :
    decodeWith false 0x01E0 = .cls ∧ decodeWith false 0x0FEE = .ret ∧ decodeWith false 0x5121 = .seR 1 2 ∧
      decodeWith false 0x912F = .sneR 1 2 ∧ decodeWith false 0x0123 = .nopU 0x0123 := by decide

/-- `6A2F` lies in memory as 6A 2F (20_memory.md R54). -/
theorem test_decode_bytes : decodeBytes [0x6A, 0x2F, 0x12] = .ok (.ldI 0xA 0x2F, [0x12]) := by rfl

theorem test_decode_truncated : decodeBytes [0x6A] = .error .truncated := by rfl

theorem test_decode_table_word :
    decodeTableWord 16 0x00E0 = some .cls ∧ decodeTableWord 16 0x8128 = some (.nopU 0x8128) := by decide

/-! ## Well-formedness: the one check refuses a recognised value called unrecognised -/

theorem test_wellFormed_refuses_recognised :
    (Instr.nopU 0x00E0).wellFormed = false ∧ (Instr.nopU 0x5120).wellFormed = false ∧
      (Instr.nopU 0xF365).wellFormed = false := by decide

theorem test_wellFormed_accepts :
    (Instr.nopU 0x0000).wellFormed = true ∧ (Instr.nopU 0x5121).wellFormed = true ∧
      (Instr.drw 1 2 5).wellFormed = true := by decide

/-! ## One step from a small state -/

/-- The reset state with `key_in`, `rnd_in` and the tick of the first two iterations fixed: no key, no tick. -/
def start : State := hostDrive [⟨0, 0, false⟩, ⟨0, 0, false⟩] State.reset

/-- The state with these registers. -/
def withRegs (s : State) (l : List (Nibble × Byte)) : State := l.foldl (fun s p => s.setReg p.1 p.2) s

/-- The state with these bytes in memory. -/
def withBytes (s : State) (base : Nat) (bs : List Byte) : State := { s with mem := writeSeq .fault s.mem base bs }

/-- The state after one step that runs the instruction `w`, if there is one. -/
def after (s : State) (w : Nat) : Option State :=
  match step (s.withFetchWord 16 w) with
  | .next t => some t
  | _ => none

/-- Registers of the state after one step. -/
def regsAfter (s : State) (w : Nat) (rs : List Nibble) : Option (List Byte) := (after s w).map fun t => rs.map t.reg

/-- `pc` after one step. -/
def pcAfter (s : State) (w : Nat) : Option Word := (after s w).map (·.pc)

/-- Bytes of memory after one step. -/
def bytesAfter (s : State) (w : Nat) (base n : Nat) : Option (List Byte) :=
  (after s w).map fun t => readSeq .fault t.mem base n

/-- The cells (row, column) that are set after one step, among those of rows 0 to 31 and columns 0 to 63. -/
def cellsAfter (s : State) (w : Nat) : Option (List (Nat × Nat)) :=
  (after s w).map fun t => (List.range 32).flatMap fun y => ((List.range 64).filter (cell t.fb y)).map (y, ·)

/-- The diagnostic, and `pc`, after one step. -/
def haltAfter (s : State) (w : Nat) : Option (Diagnostic × Word) := (after s w).map fun t => (diagnostic t, t.pc)

-- control flow
theorem test_jp : pcAfter start 0x1234 = some 0x234 := by decide
theorem test_call : (after start 0x2300).map (fun t => (t.stk[0], t.sp, t.pc)) = some (0x202, 1, 0x300) := by decide
theorem test_call_overflow :
    haltAfter { start with sp := 16 } 0x2300 = some (⟨true, 1, 0x200, 16⟩, 0x202) := by decide
theorem test_ret : (after { start with sp := 1, stk := start.stk.set 0 0xABC } 0x00EE).map (fun t => (t.pc, t.sp, t.stk[0]))
    = some (0xABC, 0, 0xABC) := by decide
theorem test_ret_underflow : haltAfter start 0x00EE = some (⟨true, 2, 0x200, 0⟩, 0x202) := by decide
theorem test_jpV0 : pcAfter (withRegs start [(0, 4), (3, 0x77)]) 0xB300 = some 0x304 := by decide
theorem test_jpV0_beyond : pcAfter (withRegs start [(0, 0xFF)]) 0xBFFF = some 0x10FE := by decide
theorem test_nopU : (after start 0x8128).map (fun t => (t.pc, t.x, t.fb)) = some (0x202, start.x, start.fb) := by decide

-- skips
theorem test_seI : pcAfter (withRegs start [(10, 5)]) 0x3A05 = some 0x204 ∧ pcAfter (withRegs start [(10, 6)]) 0x3A05 = some 0x202 := by
  decide
theorem test_sneI : pcAfter (withRegs start [(10, 5)]) 0x4A05 = some 0x202 ∧ pcAfter (withRegs start [(10, 6)]) 0x4A05 = some 0x204 := by
  decide
theorem test_seR : pcAfter (withRegs start [(1, 7), (2, 7)]) 0x5120 = some 0x204 ∧
    pcAfter (withRegs start [(1, 7), (2, 8)]) 0x5120 = some 0x202 := by decide
theorem test_sneR : pcAfter (withRegs start [(1, 7), (2, 7)]) 0x9120 = some 0x202 ∧
    pcAfter (withRegs start [(1, 7), (2, 8)]) 0x9120 = some 0x204 := by decide

-- load, arithmetic, logic, shift, random
theorem test_ldI : regsAfter start 0x6FAB [15] = some [0xAB] := by decide
theorem test_addI : regsAfter (withRegs start [(1, 0xFE)]) 0x7105 [1, 15] = some [0x03, 0] := by decide
theorem test_addI_flag_destination : regsAfter (withRegs start [(15, 0xFF)]) 0x7F01 [15] = some [0] := by decide
theorem test_ldR : regsAfter (withRegs start [(1, 0x11), (2, 0x7B), (15, 1)]) 0x8120 [1, 2, 15] = some [0x7B, 0x7B, 1] := by
  decide
theorem test_or : regsAfter (withRegs start [(1, 0xF0), (2, 0x0C), (15, 1)]) 0x8121 [1, 15] = some [0xFC, 1] := by decide
theorem test_or_flag_destination : regsAfter (withRegs start [(1, 0xFE), (15, 1)]) 0x8F11 [15] = some [0xFF] := by decide
theorem test_and : regsAfter (withRegs start [(1, 0xF5), (2, 0x3C), (15, 1)]) 0x8122 [1, 15] = some [0x34, 1] := by decide
theorem test_xor : regsAfter (withRegs start [(1, 0xF5), (2, 0x3C), (15, 1)]) 0x8123 [1, 15] = some [0xC9, 1] := by decide
theorem test_addR : regsAfter (withRegs start [(1, 0xFE), (2, 0x03)]) 0x8124 [1, 2, 15] = some [0x01, 0x03, 1] := by decide
theorem test_addR_flag_destination : regsAfter (withRegs start [(1, 1), (15, 1)]) 0x8F14 [15] = some [0] := by decide
theorem test_sub : regsAfter (withRegs start [(1, 3), (2, 5), (15, 1)]) 0x8125 [1, 15] = some [0xFE, 0] := by decide
theorem test_sub_equal : regsAfter (withRegs start [(1, 5), (2, 5)]) 0x8125 [1, 15] = some [0, 1] := by decide
theorem test_shr : regsAfter (withRegs start [(1, 5), (2, 0x99)]) 0x8126 [1, 2, 15] = some [2, 0x99, 1] := by decide
theorem test_shr_flag_destination : regsAfter (withRegs start [(15, 2)]) 0x8F06 [15] = some [0] := by decide
theorem test_subn : regsAfter (withRegs start [(1, 3), (2, 5)]) 0x8127 [1, 15] = some [2, 1] := by decide
theorem test_subn_borrow : regsAfter (withRegs start [(1, 5), (2, 3), (15, 1)]) 0x8127 [1, 15] = some [0xFE, 0] := by decide
theorem test_shl : regsAfter (withRegs start [(1, 0x81), (2, 0x99)]) 0x812E [1, 15] = some [2, 1] := by decide
theorem test_shl_no_carry : regsAfter (withRegs start [(1, 0x7F), (15, 1)]) 0x812E [1, 15] = some [0xFE, 0] := by decide
theorem test_rnd : regsAfter (hostDrive [⟨0, 0xA7, false⟩] start) 0xC30F [3] = some [0x07] := by decide
theorem test_rnd_masked_out : regsAfter start 0xC300 [3] = some [0] := by decide

-- index register and memory
theorem test_ldIdx : (after { start with i := 0xFFFF } 0xA2F0).map (·.i) = some 0x02F0 := by decide
theorem test_addIdx : (after { withRegs start [(3, 0xFF)] with i := 0xFFF0 } 0xF31E).map (·.i) = some 0x00EF := by decide
theorem test_addIdx_no_flag :
    (after { withRegs start [(3, 1)] with i := 0x0FFF } 0xF31E).map (fun t => (t.i, t.reg 15, t.halt)) = some (0x1000, 0, false) := by
  decide
theorem test_ldF : (after (withRegs start [(1, 0x0A)]) 0xF129).map (·.i) = some 0x0082 := by decide
theorem test_ldF_not_masked : (after (withRegs start [(1, 0xFF)]) 0xF129).map (·.i) = some 0x054B := by decide
theorem test_ldB : bytesAfter { withRegs start [(2, 0x7B)] with i := 0xFFD } 0xF233 0xFFD 3 = some [1, 2, 3] := by decide
theorem test_ldB_out_of_bounds :
    haltAfter { withRegs start [(2, 0x7B)] with i := 0xFFE } 0xF233 = some (⟨true, 3, 0x200, 0x1000⟩, 0x202) := by decide
theorem test_ldSt :
    bytesAfter { withRegs start [(0, 0x11), (1, 0x22), (2, 0x33), (3, 0x44)] with i := 0x400 } 0xF255 0x400 4
      = some [0x11, 0x22, 0x33, 0] := by decide
theorem test_ldSt_out_of_bounds :
    haltAfter { start with i := 0xFF1 } 0xFF55 = some (⟨true, 3, 0x200, 0x1000⟩, 0x202) := by decide
theorem test_ldLd_glyph : regsAfter { start with i := 0x050 } 0xF465 [0, 1, 2, 3, 4] = some [0xF0, 0x90, 0x90, 0x90, 0xF0] := by
  decide
theorem test_ldLd_last_byte :
    regsAfter { withBytes (withRegs start [(1, 9)]) 0xFFF [0x7E] with i := 0xFFF } 0xF065 [0, 1] = some [0x7E, 9] := by decide

-- framebuffer
theorem test_cls : cellsAfter { start with fb := start.fb.set 3 5 } 0x00E0 = some [] := by decide
theorem test_drw_clips_right : cellsAfter { withBytes (withRegs start [(1, 0x3C)]) 0x300 [0xFF] with i := 0x300 } 0xD121
    = some [(0, 60), (0, 61), (0, 62), (0, 63)] := by decide
theorem test_drw_collision :
    (after { withBytes start 0x301 [0x80] with i := 0x301, fb := start.fb.set 0 1 } 0xD121).map (fun t => (t.fb, t.reg 15))
      = some (start.fb, 1) := by decide

-- timers and keys
theorem test_ldVdt : regsAfter { start with dt := 0x2A } 0xF307 [3] = some [0x2A] := by decide
theorem test_ldDtv : (after (withRegs start [(3, 0x3C)]) 0xF315).map (·.dt) = some 0x3C := by decide
theorem test_ldStv : (after (withRegs start [(4, 2)]) 0xF418).map (fun t => (t.st, buzzer t)) = some (2, true) := by decide
theorem test_skp : pcAfter (hostDrive [⟨0x0020, 0, false⟩] (withRegs start [(3, 5)])) 0xE39E = some 0x204 ∧
    pcAfter (hostDrive [⟨0xFFDF, 0, false⟩] (withRegs start [(3, 5)])) 0xE39E = some 0x202 := by decide
theorem test_skp_no_such_key : haltAfter (withRegs start [(3, 0x10)]) 0xE39E = some (⟨true, 5, 0x200, 0x10⟩, 0x202) := by
  decide
theorem test_sknp : pcAfter (hostDrive [⟨0x0020, 0, false⟩] (withRegs start [(3, 5)])) 0xE3A1 = some 0x202 ∧
    pcAfter (withRegs start [(3, 5)]) 0xE3A1 = some 0x204 := by decide
theorem test_wkr_waits : pcAfter (hostDrive [⟨0x0080, 0, false⟩] (withRegs start [(5, 7)])) 0xF50A = some 0x200 := by decide
theorem test_wkr_edge : pcAfter { withRegs start [(5, 7)] with k := 0x0080 } 0xF50A = some 0x202 := by decide

-- fetch, cycle, tick, host
theorem test_fetch_odd_pc : (after { start with pc := 0x201 } 0x6007).map (fun t => (t.reg 0, t.pc)) = some (7, 0x203) := by
  decide
theorem test_fetch_out_of_bounds :
    (match step { start with pc := 0xFFF } with | .next t => some (diagnostic t, t.pc) | _ => none)
      = some (⟨true, 4, 0xFFF, 0xFFF⟩, 0xFFF) := by decide
theorem test_tick_after_cycle :
    (after (hostDrive [⟨0, 0, true⟩] { start with dt := 3, st := 1 }) 0x0000).map
        (fun t => (t.dt, t.st, t.env.refresh.map (·.buzzer), buzzer t)) = some (2, 0, some true, false) := by decide
theorem test_load_truncates :
    (match hostLoad (List.replicate 4 7) State.reset with | .next t => some (readSeq .fault t.mem 0x1FF 6) | _ => none)
      = some [0, 7, 7, 7, 7, 0] := by decide
theorem test_load_once :
    (match hostLoad [7] State.reset with
      | .next t => (match hostLoad [8] t with | .refused r => some r | _ => none)
      | _ => none) = some Refusal.loadNotPermitted := by decide

/-! ## Witnesses: states and operands that meet the hypotheses of each statement of Obligations.lean, at the boundaries -/

/-- The instruction answers a next state of which this holds. -/
def did (i : Instr) (s : State) (p : State → Bool) : Bool :=
  match exec i s with
  | .next t => p t
  | _ => false

/-- One step answers a next state of which this holds. -/
def stepDid (s : State) (p : State → Bool) : Bool :=
  match step s with
  | .next t => p t
  | _ => false

/-- A mask, a pattern, and the value with every operand bit 1. -/
def selectsAllOnes (p : Word × Word) : Bool := (p.2 ||| ~~~p.1) &&& p.1 == p.2

theorem witness_DecodesTo :
    (opcodeRows true).all (fun r => selectsAllOnes (r.mask, r.pattern)) = true ∧ (opcodeRows true).length = 34 := by decide

/-- The port `reset` after a fatal error; the clauses' addresses at their boundaries. -/
theorem witness_ResetLeavesTheStatedValues :
    (hostReset (haltedBy .stackUnderflow 0 { start with i := 7 })).halt = false ∧
    State.reset.mem.read 0x04F = 0 ∧ State.reset.mem.read 0x050 = 0xF0 ∧ State.reset.mem.read 0x09F = 0x80 ∧
      State.reset.mem.read 0x0A0 = 0 ∧ State.reset.mem.read 0xFFF = 0 := by decide

theorem witness_StepRunsTheDecodedInstruction :
    let s := withBytes { start with pc := 0xFFE } 0xFFE [0x12, 0x34]
    s.halt = false ∧ s.pc.toNat ≤ 0xFFE ∧
      (0x1234 : Word).toNat = (s.mem.read s.pc.toNat).toNat * 256 + (s.mem.read (s.pc.toNat + 1)).toNat := by decide

theorem witness_FetchOutsideMemoryHalts :
    ({ start with pc := 0xFFF } : State).halt = false ∧ 0xFFE < ({ start with pc := 0xFFF } : State).pc.toNat := by decide

theorem witness_HaltedMachineTakesNoStep : (haltedBy .stackUnderflow 0 start).halt = true := by decide

theorem witness_RunningMachineAlwaysSteps : start.halt = false := by decide

theorem witness_ReturnPopsOrUnderflows :
    ({ start with sp := 16 } : State).sp.val = 15 + 1 ∧ ({ start with sp := 1 } : State).sp.val = 0 + 1 ∧ start.sp = 0 := by
  decide

theorem witness_CallPushesOrOverflows :
    start.sp.val < 16 ∧ ({ start with sp := 15 } : State).sp.val < 16 ∧ ({ start with sp := 16 } : State).sp = 16 := by decide

theorem witness_UnrecognisedValueDoesNothing : recognised true 0x0000 = false ∧ recognised true 0xFFFF = false := by decide

theorem witness_CallThenReturnRestoresPc : ({ start with sp := 15 } : State).sp.val < 16 := by decide

theorem witness_DecimalDigitsAreStoredAtI :
    ({ start with i := 0xFFD } : State).i.toNat ≤ 0xFFD ∧ 0xFFD < ({ start with i := 0xFFE } : State).i.toNat := by decide

theorem witness_StoreCopiesRegistersToMemory :
    ({ start with i := 0xFF0 } : State).i.toNat + (15 : Nibble).toNat ≤ 0xFFF ∧
      0xFFF < ({ start with i := 0xFF1 } : State).i.toNat + (15 : Nibble).toNat ∧
      0xFFF < ({ start with i := 0x1000 } : State).i.toNat + (0 : Nibble).toNat := by decide

theorem witness_LoadCopiesMemoryToRegisters :
    ({ start with i := 0xFFF } : State).i.toNat + (0 : Nibble).toNat ≤ 0xFFF ∧
      0xFFF < ({ start with i := 0xFFFF } : State).i.toNat + (0 : Nibble).toNat := by decide

theorem witness_StoreThenLoadRestoresRegisters :
    ({ withRegs start [(1, 0x22)] with i := 0xFFE } : State).i.toNat + (1 : Nibble).toNat ≤ 0xFFF ∧
      did (.ldSt 1) { withRegs start [(1, 0x22)] with i := 0xFFE } (fun t =>
        did (.ldLd 1) { t with x := start.x } fun u => u.reg 1 == 0x22) = true := by decide

theorem witness_StoredBytesAreFetchedAtOnce :
    ({ start with i := 0xFF0 } : State).i.toNat + (15 : Nibble).toNat ≤ 0xFFF ∧
      (15 : Nibble).toNat = (14 : Nibble).toNat + 1 ∧ (15 : Nibble).toNat ≤ (15 : Nibble).toNat ∧
      did (.ldSt 15) { start with i := 0xFF0 } (fun t => !t.halt) = true := by decide

/-- No row at all, the last byte of memory, the last row of the grid, and one byte too many. -/
theorem witness_SpriteFlipsItsCellsAndReportsCollision :
    rowsDrawn 2 0 { start with i := 0xFFFF } = 0 ∧
      (({ start with i := 0xFFF } : State).i.toNat + rowsDrawn 2 1 { start with i := 0xFFF } - 1 ≤ 0xFFF) ∧
      (({ withRegs start [(2, 31)] with i := 0xFFF } : State).i.toNat
        + rowsDrawn 2 15 { withRegs start [(2, 31)] with i := 0xFFF } - 1 ≤ 0xFFF) ∧
      rowsDrawn 2 2 { start with i := 0xFFF } ≠ 0 ∧
      0xFFF < ({ start with i := 0xFFF } : State).i.toNat + rowsDrawn 2 2 { start with i := 0xFFF } - 1 := by decide

theorem witness_SpriteDrawnTwiceRestoresTheFramebuffer :
    (1 : Nibble) ≠ 15 ∧ (2 : Nibble) ≠ 15 ∧ start.halt = false ∧ (List.range 32).all (fun r => start.fb[r]? == some 0) = true ∧
      did (.drw 1 2 1) { start with i := 0x050 } (fun t => !t.halt && did (.drw 1 2 1) t fun u => !u.halt && u.reg 15 == 1)
        = true := by decide

theorem witness_KeySkipsTestTheSampledKey :
    ((withRegs start [(3, 15)]).reg 3).toNat ≤ 15 ∧ 15 < ((withRegs start [(3, 16)]).reg 3).toNat := by decide

theorem witness_KeyWaitFallsThroughOnTheReleaseEdge :
    let edge : State := { withRegs start [(3, 15)] with kp := 0x8000, k := 0 }
    let held : State := { withRegs start [(3, 15)] with kp := 0x8000, k := 0x8000 }
    (edge.reg 3).toNat ≤ 15 ∧ edge.kp.getLsbD (edge.reg 3).toNat = true ∧ edge.k.getLsbD (edge.reg 3).toNat = false ∧
      (held.reg 3).toNat ≤ 15 ∧ held.k.getLsbD (held.reg 3).toNat ≠ false ∧ 15 < ((withRegs start [(3, 16)]).reg 3).toNat := by
  decide

theorem witness_KeyWaitRepeatsUntilTheReleaseEdge :
    let s := withBytes { withRegs start [(5, 15)] with pc := 0xFFE, k := 0x8000 } 0xFFE [0xF5, 0x0A]
    s.halt = false ∧ s.pc.toNat ≤ 0xFFE ∧
      decode (wordOfBytes (s.mem.read s.pc.toNat) (s.mem.read (s.pc.toNat + 1))) = .wkr 5 ∧ (s.reg 5).toNat ≤ 15 ∧
      stepDid s (fun t => t.pc == 0x1000) = true := by decide

theorem witness_DecodeInvertsEncode :
    (Instr.nopU 0xFFFF).wellFormed = true ∧ (Instr.jp 0xFFF).wellFormed = true ∧ (Instr.drw 15 15 15).wellFormed = true := by
  decide

theorem start_inv : Inv start := by
  refine ⟨by decide, fun j h => ?_, by decide, by decide⟩
  simp [start, hostDrive, State.reset]

theorem witness_StepKeepsTheInvariant : Inv start ∧ stepDid start (fun t => t.pc == 0x202) = true := ⟨start_inv, by decide⟩

theorem witness_ReachableStatesMeetTheInvariant : Reachable start := .hostDrive .reset

theorem witness_OnlyStoresChangeMemory : did (.ldB 0) { start with i := 0x050 } (fun t => t.mem != start.mem) = true := by decide

theorem witness_OnlyClearAndDrawChangeTheFramebuffer :
    did (.drw 1 2 1) { start with i := 0x050 } (fun t => t.fb != start.fb) = true := by decide

theorem witness_OnlyIndexInstructionsChangeI : did (.ldF 0) start (fun t => t.i != start.i) = true := by decide

theorem witness_OnlyCallAndReturnTouchTheStack :
    did (.call 0) start (fun t => t.stk != start.stk && t.sp != start.sp) = true ∧
      did .ret { start with sp := 16 } (fun t => t.sp == 15) = true ∧ Instr.cls ≠ .ret := by decide

theorem witness_OnlyCallAndReturnTouchTheStack_others : ∀ nnn, Instr.cls ≠ .call nnn := by simp

theorem witness_OnlyTimerInstructionsChangeTimers :
    did (.ldDtv 1) (withRegs start [(1, 9)]) (fun t => t.dt != start.dt) = true ∧
      did (.ldStv 1) (withRegs start [(1, 9)]) (fun t => t.st != start.st) = true := by decide

theorem witness_NoInstructionChangesSamplesOrPorts : did (.rnd 1 0xFF) start (fun _ => true) = true := by decide

theorem witness_RegistersChangeOnlyWhereNamed :
    did (.sub 1 2) (withRegs start [(2, 1)]) (fun t => t.reg 1 != 0) = true ∧
      did (.ldLd 15) { start with i := 0x050 } (fun t => t.reg 15 != 0) = true := by decide

theorem witness_OnlyControlTransfersChangePc : did (.jp 0xFFF) start (fun t => t.pc != start.pc) = true := by decide

theorem witness_FlagIsZeroOrOneAfterFlagWriters :
    writesFlag (.shl 15 15) ∧ start.halt = false ∧ did (.shl 15 15) (withRegs start [(15, 0xFF)]) (fun t => !t.halt) = true :=
  ⟨trivial, by decide, by decide⟩

theorem witness_FatalErrorsArePrecise :
    start.halt = false ∧ did .ret start (fun t => t.halt) = true ∧ did .cls start (fun t => !t.halt) = true := by decide

theorem witness_RandomByteReachesOnlyRandom : ∀ x nn, Instr.cls ≠ .rnd x nn := by simp

theorem witness_TimersAreReadOnlyWhereNamed :
    (∀ x, Instr.cls ≠ .ldVdt x) ∧ (∀ x, Instr.cls ≠ .ldDtv x) ∧ ∀ x, Instr.ldVdt 0 ≠ .ldStv x := by simp

theorem witness_KeySamplesAreReadOnlyByKeyInstructions :
    (∀ x, Instr.cls ≠ .skp x) ∧ (∀ x, Instr.cls ≠ .sknp x) ∧ (∀ x, Instr.cls ≠ .wkr x) ∧ ∀ x, Instr.skp 0 ≠ .wkr x := by simp

theorem witness_LoadPlacesTheImageOnce :
    start.env.loadOpen = true ∧ 3583 < (List.replicate 3585 (7 : Byte)).length ∧ 3583 < 3584 ∧
      stepDid start (fun t => t.env.loadOpen == false) = true :=
  ⟨by decide, by rw [List.length_replicate]; decide, by decide, by decide⟩

end Sys2Proof.Tests
end

section
/-! PROOFS. The skips on registers (41_skips.md). -/

namespace Sys2Proof.Proofs

open Machine

/-! ## Decoding -/

/-- A row whose mask keeps only `F` is decoded by the first level of dispatch alone (30_encoding.md R87). -/
theorem decodesTo_of_fieldF {pattern : Word} {g : Word → Instr} (f : Nibble) (hp : pattern = formatXK f 0 0)
    (hg : ∀ op, fieldF op = f → decode op = g op) : DecodesTo 0xF000 pattern g :=
  fun op h => hg op ((and_F000 op pattern f hp).mp h)

theorem decode_of_fieldF_3 (op : Word) (h : fieldF op = 0x3) : decode op = .seI (fieldX op) (fieldNN op) := by
  rw [decode, decodeWith, h]; rfl

theorem decode_of_fieldF_4 (op : Word) (h : fieldF op = 0x4) : decode op = .sneI (fieldX op) (fieldNN op) := by
  rw [decode, decodeWith, h]; rfl

/-! ## Execution: a skip changes `pc` alone (R124) -/

theorem skipIf_beq (s : State) (a b : Byte) :
    s.skipIf (a == b) = { s with pc := if a = b then s.pc + 2 else s.pc } := by
  simp only [State.skipIf, nextInsn_eq, beq_iff_eq]

theorem skipIf_bne (s : State) (a b : Byte) :
    s.skipIf (a != b) = { s with pc := if a = b then s.pc else s.pc + 2 } := by
  simp only [State.skipIf, nextInsn_eq, bne_iff_ne, ite_not]

theorem exec_seI (x : Nibble) (nn : Byte) (s : State) :
    exec (.seI x nn) s = .next { s with pc := if s.reg x = nn then s.pc + 2 else s.pc } :=
  congrArg Host.Outcome.next (skipIf_beq s (s.reg x) nn)

theorem exec_sneI (x : Nibble) (nn : Byte) (s : State) :
    exec (.sneI x nn) s = .next { s with pc := if s.reg x = nn then s.pc else s.pc + 2 } :=
  congrArg Host.Outcome.next (skipIf_bne s (s.reg x) nn)

/-- Settles O20: the two rows are families 3 and 4, and each skip's one effect on `pc` is read off its comparison with NN. -/
theorem immediateSkipsCompareWithNN : Obligations.ImmediateSkipsCompareWithNN :=
  ⟨decodesTo_of_fieldF 0x3 (by decide) decode_of_fieldF_3,
   decodesTo_of_fieldF 0x4 (by decide) decode_of_fieldF_4,
   fun x nn s => ⟨exec_seI x nn s, exec_sneI x nn s⟩⟩

end Sys2Proof.Proofs
end

section
/-! PROOFS. The immediate load and add, and the register add (42_alu.md). -/

namespace Sys2Proof.Proofs

open Machine

/-! ## Decoding -/

/-- A row whose mask keeps `F` and `N` is decoded by both levels of dispatch (30_encoding.md R87, R89). -/
theorem decodesTo_of_fieldF_fieldN {pattern : Word} {g : Word → Instr} (f n : Nibble) (hp : pattern = formatXY f 0 0 n)
    (hg : ∀ op, fieldF op = f → fieldN op = n → decode op = g op) : DecodesTo 0xF00F pattern g := by
  intro op h
  obtain ⟨hf, hn⟩ := (and_F00F op pattern f n hp).mp h
  exact hg op hf hn

theorem decode_of_fieldF_6 (op : Word) (h : fieldF op = 0x6) : decode op = .ldI (fieldX op) (fieldNN op) := by
  rw [decode, decodeWith, h]; rfl

theorem decode_of_fieldF_7 (op : Word) (h : fieldF op = 0x7) : decode op = .addI (fieldX op) (fieldNN op) := by
  rw [decode, decodeWith, h]; rfl

theorem decode_of_fieldF_8 (op : Word) (h : fieldF op = 0x8) : decode op = decodeFamily8 op := by
  rw [decode, decodeWith, h]; rfl

theorem decodeFamily8_of_fieldN_4 (op : Word) (h : fieldN op = 0x4) :
    decodeFamily8 op = .addR (fieldX op) (fieldY op) := by
  rw [decodeFamily8, h]; rfl

/-! ## Execution: the sum of two bytes is reduced modulo 256, the carry is taken from the unreduced sum (R143) -/

theorem byte_add_eq_ofNat_mod (a b : Byte) : a + b = BitVec.ofNat 8 ((a.toNat + b.toNat) % 256) := by
  apply BitVec.eq_of_toNat_eq
  rw [BitVec.toNat_add, BitVec.toNat_ofNat, Nat.mod_mod]

theorem carryFlag_byte (a b : Byte) :
    (if carryFlag a b then 1 else 0 : Byte) = if 255 < a.toNat + b.toNat then 1 else 0 := by
  simp only [carryFlag, decide_eq_true_eq]

theorem exec_ldI (x : Nibble) (nn : Byte) (s : State) :
    exec (.ldI x nn) s = .next { s with x := s.x.set x.toNat nn x.isLt } := rfl

theorem exec_addI (x : Nibble) (nn : Byte) (s : State) :
    exec (.addI x nn) s = .next
      { s with x := s.x.set x.toNat (BitVec.ofNat 8 (((s.reg x).toNat + nn.toNat) % 256)) x.isLt } := by
  rw [← byte_add_eq_ofNat_mod]; rfl

/-- The flag is written last (R144), so it stays in `x[15]` when the destination is `x[15]` too. -/
theorem exec_addR (x y : Nibble) (s : State) :
    exec (.addR x y) s = .next
      { s with
        x := (s.x.set x.toNat (BitVec.ofNat 8 (((s.reg x).toNat + (s.reg y).toNat) % 256)) x.isLt).set 15
          (if 255 < (s.reg x).toNat + (s.reg y).toNat then 1 else 0) } := by
  rw [← byte_add_eq_ofNat_mod, ← carryFlag_byte]; rfl

/-- Settles O8: the row is family 6, and the load is one register write. -/
theorem loadImmediateSetsItsRegister : Obligations.LoadImmediateSetsItsRegister :=
  ⟨decodesTo_of_fieldF 0x6 (by decide) decode_of_fieldF_6, exec_ldI⟩

/-- Settles O9: the row is family 7, and the one register written gets the wrapped sum. -/
theorem addImmediateWrapsWithoutFlag : Obligations.AddImmediateWrapsWithoutFlag :=
  ⟨decodesTo_of_fieldF 0x7 (by decide) decode_of_fieldF_7, exec_addI⟩

/-- Settles O11: the row is family 8 with N = 4; the wrapped sum is written first, the carry of the unreduced sum last. -/
theorem addWritesSumThenCarry : Obligations.AddWritesSumThenCarry :=
  ⟨decodesTo_of_fieldF_fieldN 0x8 0x4 (by decide)
    fun op hf hn => (decode_of_fieldF_8 op hf).trans (decodeFamily8_of_fieldN_4 op hn), exec_addR⟩

end Sys2Proof.Proofs
end

section
/-! PROOFS. The load of the index register (43_index_memory.md). -/

namespace Sys2Proof.Proofs

open Machine

theorem decode_of_fieldF_A (op : Word) (h : fieldF op = 0xA) : decode op = .ldIdx (fieldNNN op) := by
  rw [decode, decodeWith, h]; rfl

/-- The 12-bit operand is extended with zeros (R150), so the stored word has the operand's value. -/
theorem exec_ldIdx (nnn : Addr12) (s : State) :
    exec (.ldIdx nnn) s = .next { s with i := BitVec.ofNat 16 nnn.toNat } := by
  rw [BitVec.ofNat_toNat]; rfl

/-- Settles O23: the row is family A, and the load's one effect is the extended operand in `i`. -/
theorem loadIndexSetsI : Obligations.LoadIndexSetsI :=
  ⟨decodesTo_of_fieldF 0xA (by decide) decode_of_fieldF_A, exec_ldIdx⟩

end Sys2Proof.Proofs
end

section
/-! PROOFS. Clearing the display (44_display.md). -/

namespace Sys2Proof.Proofs

open Machine

/-- A row whose mask keeps every bit selects its pattern alone (30_encoding.md R88). -/
theorem decodesTo_of_fullMask {pattern : Word} {i : Instr} (h : decode pattern = i) :
    DecodesTo 0xFFFF pattern (fun _ => i) := by
  intro op hop
  have hpattern : op = pattern := (BitVec.and_allOnes (x := op)).symm.trans hop
  rw [hpattern, h]

theorem exec_cls (s : State) : exec .cls s = .next { s with fb := clearFb } := rfl

/-- Settles O31: the row is the one value 00E0, and the framebuffer written is the cleared one, whose cells are all 0. -/
theorem clearSetsEveryCellToZero : Obligations.ClearSetsEveryCellToZero :=
  ⟨decodesTo_of_fullMask (by decide), fun s => ⟨clearFb, exec_cls s, cell_clearFb⟩⟩

end Sys2Proof.Proofs
end

section
/-! PROOFS. The delay timer's read and its setting (45_timers_input.md). -/

namespace Sys2Proof.Proofs

open Machine

/-! ## Decoding -/

/-- A row whose mask keeps `F` and `NN` is decoded by both levels of dispatch (30_encoding.md R87, R91). -/
theorem decodesTo_of_fieldF_fieldNN {pattern : Word} {g : Word → Instr} (f : Nibble) (nn : Byte)
    (hp : pattern = formatXK f 0 nn) (hg : ∀ op, fieldF op = f → fieldNN op = nn → decode op = g op) :
    DecodesTo 0xF0FF pattern g := by
  intro op h
  obtain ⟨hf, hnn⟩ := (and_F0FF op pattern f nn hp).mp h
  exact hg op hf hnn

theorem decode_of_fieldF_F (op : Word) (h : fieldF op = 0xF) : decode op = decodeFamilyF op := by
  rw [decode, decodeWith, h]; rfl

theorem decodeFamilyF_of_fieldNN_07 (op : Word) (h : fieldNN op = 0x07) : decodeFamilyF op = .ldVdt (fieldX op) := by
  rw [decodeFamilyF, h]; rfl

theorem decodeFamilyF_of_fieldNN_15 (op : Word) (h : fieldNN op = 0x15) : decodeFamilyF op = .ldDtv (fieldX op) := by
  rw [decodeFamilyF, h]; rfl

/-! ## Execution: one register gets `DT`, or `DT` gets one register -/

theorem exec_ldVdt (x : Nibble) (s : State) :
    exec (.ldVdt x) s = .next { s with x := s.x.set x.toNat s.dt x.isLt } := rfl

theorem exec_ldDtv (x : Nibble) (s : State) : exec (.ldDtv x) s = .next { s with dt := s.reg x } := rfl

/-- Settles O35: the two rows are family F with NN = 07 and NN = 15, and each instruction is one write. -/
theorem delayTimerIsReadAndSet : Obligations.DelayTimerIsReadAndSet :=
  ⟨decodesTo_of_fieldF_fieldNN 0xF 0x07 (by decide)
     fun op hf hnn => (decode_of_fieldF_F op hf).trans (decodeFamilyF_of_fieldNN_07 op hnn),
   decodesTo_of_fieldF_fieldNN 0xF 0x15 (by decide)
     fun op hf hnn => (decode_of_fieldF_F op hf).trans (decodeFamilyF_of_fieldNN_15 op hnn),
   fun x s => ⟨exec_ldVdt x s, exec_ldDtv x s⟩⟩

end Sys2Proof.Proofs
end

section
/-! PROOFS. The encoding as a whole (30_encoding.md sections 2 to 4): the opcode map against the dispatch, decode against
encode. -/

namespace Sys2Proof.Proofs

open Machine

/-! ## The opcode map read as fields -/

theorem selects_iff (r : OpcodeRow) (op : Word) : r.selects op = true ↔ op &&& r.mask = r.pattern := beq_iff_eq

/-- Mask FFFF fixes the whole value. -/
theorem and_FFFF (op m : Word) (f x : Nibble) (nn : Byte) (hm : m = formatXK f x nn) :
    op &&& 0xFFFF = m ↔ fieldF op = f ∧ fieldX op = x ∧ fieldNN op = nn := by
  subst hm
  rw [show op &&& 0xFFFF = op from BitVec.and_allOnes]
  constructor
  · rintro rfl
    exact ⟨fieldF_formatXK f x nn, fieldX_formatXK f x nn, fieldNN_formatXK f x nn⟩
  · rintro ⟨rfl, rfl, rfl⟩
    exact (formatXK_fields op).symm

theorem any_rowsByFamily (op : Word) : rowsByFamily.any (·.selects op) = true ↔
    fieldF op ∈ [0x1, 0x2, 0x3, 0x4, 0x6, 0x7, 0xA, 0xB, 0xC, 0xD] := by
  have hrows : rowsByFamily = [0x1, 0x2, 0x3, 0x4, 0x6, 0x7, 0xA, 0xB, 0xC, 0xD].map fun f => ⟨0xF000, formatXK f 0 0⟩ := by
    decide
  rw [hrows, List.any_map, List.any_eq_true]
  simp only [Function.comp, selects_iff, and_F000 op _ _ rfl, exists_eq_right']

theorem any_rowsFamily8 (op : Word) : rowsFamily8.any (·.selects op) = true ↔
    fieldF op = 0x8 ∧ fieldN op ∈ [0x0, 0x1, 0x2, 0x3, 0x4, 0x5, 0x6, 0x7, 0xE] := by
  have hrows : rowsFamily8 = [0x0, 0x1, 0x2, 0x3, 0x4, 0x5, 0x6, 0x7, 0xE].map fun n => ⟨0xF00F, formatXY 0x8 0 0 n⟩ := by
    decide
  rw [hrows, List.any_map, List.any_eq_true]
  simp only [Function.comp, selects_iff, and_F00F op _ _ _ rfl]
  constructor
  · rintro ⟨n, hn, hf, rfl⟩; exact ⟨hf, hn⟩
  · rintro ⟨hf, hn⟩; exact ⟨_, hn, hf, rfl⟩

theorem any_rowsFamiliesEF (op : Word) : rowsFamiliesEF.any (·.selects op) = true ↔
    (fieldF op = 0xE ∧ fieldNN op ∈ [0x9E, 0xA1]) ∨
    (fieldF op = 0xF ∧ fieldNN op ∈ [0x07, 0x0A, 0x15, 0x18, 0x1E, 0x29, 0x33, 0x55, 0x65]) := by
  have hrows : rowsFamiliesEF =
      ([0x9E, 0xA1].map fun nn => ⟨0xF0FF, formatXK 0xE 0 nn⟩) ++
      [0x07, 0x0A, 0x15, 0x18, 0x1E, 0x29, 0x33, 0x55, 0x65].map fun nn => ⟨0xF0FF, formatXK 0xF 0 nn⟩ := by decide
  rw [hrows, List.any_append, Bool.or_eq_true, List.any_map, List.any_map, List.any_eq_true, List.any_eq_true]
  simp only [Function.comp, selects_iff, and_F0FF op _ _ _ rfl]
  constructor
  · rintro (⟨nn, hnn, hf, rfl⟩ | ⟨nn, hnn, hf, rfl⟩)
    · exact .inl ⟨hf, hnn⟩
    · exact .inr ⟨hf, hnn⟩
  · rintro (⟨hf, hnn⟩ | ⟨hf, hnn⟩)
    · exact .inl ⟨_, hnn, hf, rfl⟩
    · exact .inr ⟨_, hnn, hf, rfl⟩

theorem any_rowsByStrictness (strict : Bool) (op : Word) : (rowsByStrictness strict).any (·.selects op) = true ↔
    (fieldF op = 0x0 ∧ (strict = true → fieldX op = 0) ∧ fieldNN op ∈ [0xE0, 0xEE]) ∨
    (fieldF op ∈ [0x5, 0x9] ∧ (strict = true → fieldN op = 0)) := by
  cases strict with
  | true =>
    simp only [rowsByStrictness, if_true, List.any_cons, List.any_nil, Bool.or_eq_true, selects_iff,
      and_FFFF op 0x00E0 0x0 0x0 0xE0 (by decide), and_FFFF op 0x00EE 0x0 0x0 0xEE (by decide),
      and_F00F op 0x5000 0x5 0x0 (by decide), and_F00F op 0x9000 0x9 0x0 (by decide)]
    simp only [forall_const, List.mem_cons, List.not_mem_nil, or_false]
    tauto
  | false =>
    simp only [rowsByStrictness, Bool.false_eq_true, if_false, List.any_cons, List.any_nil, Bool.or_eq_true, selects_iff,
      and_F0FF op 0x00E0 0x0 0xE0 (by decide), and_F0FF op 0x00EE 0x0 0xEE (by decide),
      and_F000 op 0x5000 0x5 (by decide), and_F000 op 0x9000 0x9 (by decide)]
    simp only [IsEmpty.forall_iff, true_and, and_true, List.mem_cons, List.not_mem_nil, or_false]
    tauto

/-- When the opcode map recognises a value, in terms of its fields. -/
theorem recognised_iff (strict : Bool) (op : Word) : recognised strict op = true ↔
    (fieldF op = 0x0 ∧ (strict = true → fieldX op = 0) ∧ fieldNN op ∈ [0xE0, 0xEE]) ∨
    (fieldF op ∈ [0x5, 0x9] ∧ (strict = true → fieldN op = 0)) ∨
    fieldF op ∈ [0x1, 0x2, 0x3, 0x4, 0x6, 0x7, 0xA, 0xB, 0xC, 0xD] ∨
    (fieldF op = 0x8 ∧ fieldN op ∈ [0x0, 0x1, 0x2, 0x3, 0x4, 0x5, 0x6, 0x7, 0xE]) ∨
    (fieldF op = 0xE ∧ fieldNN op ∈ [0x9E, 0xA1]) ∨
    (fieldF op = 0xF ∧ fieldNN op ∈ [0x07, 0x0A, 0x15, 0x18, 0x1E, 0x29, 0x33, 0x55, 0x65]) := by
  simp only [recognised, opcodeRows, List.any_append, Bool.or_eq_true, any_rowsByStrictness, any_rowsByFamily,
    any_rowsFamily8, any_rowsFamiliesEF, or_assoc]

/-! ## When a family's second level answers `NOP.U` -/

theorem decodeFamily0_eq_nopU (strict : Bool) (op : Word) : decodeFamily0 strict op = .nopU op ↔
    ¬ ((strict = true → fieldX op = 0) ∧ fieldNN op ∈ [0xE0, 0xEE]) := by
  unfold decodeFamily0
  split
  · next h => simp_all
  · next h => split <;> simp_all

theorem decodeFamily5_eq_nopU (strict : Bool) (op : Word) : decodeFamily5 strict op = .nopU op ↔
    ¬ (strict = true → fieldN op = 0) := by
  unfold decodeFamily5
  split <;> simp_all

theorem decodeFamily8_eq_nopU (op : Word) : decodeFamily8 op = .nopU op ↔
    fieldN op ∉ [0x0, 0x1, 0x2, 0x3, 0x4, 0x5, 0x6, 0x7, 0xE] := by
  unfold decodeFamily8
  split <;> simp_all

theorem decodeFamily9_eq_nopU (strict : Bool) (op : Word) : decodeFamily9 strict op = .nopU op ↔
    ¬ (strict = true → fieldN op = 0) := by
  unfold decodeFamily9
  split <;> simp_all

theorem decodeFamilyE_eq_nopU (op : Word) : decodeFamilyE op = .nopU op ↔ fieldNN op ∉ [0x9E, 0xA1] := by
  unfold decodeFamilyE
  split <;> simp_all

theorem decodeFamilyF_eq_nopU (op : Word) : decodeFamilyF op = .nopU op ↔
    fieldNN op ∉ [0x07, 0x0A, 0x15, 0x18, 0x1E, 0x29, 0x33, 0x55, 0x65] := by
  unfold decodeFamilyF
  split <;> simp_all

/-- The last branch of the first level is family F. -/
theorem nibble_eq_F {f : Nibble} (h0 : f ≠ 0x0) (h1 : f ≠ 0x1) (h2 : f ≠ 0x2) (h3 : f ≠ 0x3) (h4 : f ≠ 0x4)
    (h5 : f ≠ 0x5) (h6 : f ≠ 0x6) (h7 : f ≠ 0x7) (h8 : f ≠ 0x8) (h9 : f ≠ 0x9) (hA : f ≠ 0xA) (hB : f ≠ 0xB)
    (hC : f ≠ 0xC) (hD : f ≠ 0xD) (hE : f ≠ 0xE) : f = 0xF := by
  bv_omega

/-- Settles O43: for each value of `F`, the second level answers `NOP.U` exactly where the map's rows of that family leave
the fields out. -/
theorem dispatchAgreesWithTheOpcodeMap : Obligations.DispatchAgreesWithTheOpcodeMap := by
  intro strict op
  rw [← Bool.not_eq_true, recognised_iff]
  unfold decodeWith
  split
  case h_1 h => simp [h, decodeFamily0_eq_nopU]
  case h_6 h => simp [h, decodeFamily5_eq_nopU]
  case h_9 h => simp [h, decodeFamily8_eq_nopU]
  case h_10 h => simp [h, decodeFamily9_eq_nopU]
  case h_15 h => simp [h, decodeFamilyE_eq_nopU]
  case h_16 h0 h1 h2 h3 h4 h5 h6 h7 h8 h9 hA hB hC hD hE =>
    have h := nibble_eq_F h0 h1 h2 h3 h4 h5 h6 h7 h8 h9 hA hB hC hD hE
    simp [h, decodeFamilyF_eq_nopU]
  all_goals next h => simp [h]

/-! ## The rows are disjoint -/

/-- Two rows no value selects both of: on the bits both masks keep, the patterns differ. -/
def Apart (r q : OpcodeRow) : Prop := r.pattern &&& q.mask ≠ q.pattern &&& r.mask

theorem Apart.not_selects {r q : OpcodeRow} (h : Apart r q) {op : Word} (hr : r.selects op = true) :
    ¬ q.selects op = true := by
  intro hq
  rw [selects_iff] at hr hq
  refine h ?_
  rw [← hr, ← hq, BitVec.and_assoc, BitVec.and_assoc, BitVec.and_comm r.mask]

theorem opcodeRows_pairwise_apart (strict : Bool) : (opcodeRows strict).Pairwise Apart := by
  unfold Apart
  cases strict <;> decide

/-- Settles O44: the rows are pairwise apart, so the ones a value selects are at most one. -/
theorem opcodeRowsAreDisjoint : Obligations.OpcodeRowsAreDisjoint := by
  intro strict op
  have hsel : ∀ r ∈ (opcodeRows strict).filter (·.selects op), r.selects op = true := fun r hr => (List.mem_filter.mp hr).2
  have hapart := (opcodeRows_pairwise_apart strict).filter (·.selects op)
  generalize (opcodeRows strict).filter (·.selects op) = rows at hsel hapart ⊢
  match rows with
  | [] => exact Nat.zero_le 1
  | [_] => exact Nat.le_refl 1
  | r :: q :: _ =>
    have hrq : Apart r q := List.rel_of_pairwise_cons hapart List.mem_cons_self
    exact absurd (hsel q (by simp)) (hrq.not_selects (hsel r List.mem_cons_self))

/-! ## Encode after decode: a format filled with a value's own fields is the value -/

theorem formatA_of_fieldF {op : Word} {f : Nibble} (hf : fieldF op = f) : formatA f (fieldNNN op) = op := by
  rw [← hf, formatA_fields]

theorem formatXK_of_fieldF {op : Word} {f : Nibble} (hf : fieldF op = f) : formatXK f (fieldX op) (fieldNN op) = op := by
  rw [← hf, formatXK_fields]

theorem formatXY_of_fieldF {op : Word} {f : Nibble} (hf : fieldF op = f) :
    formatXY f (fieldX op) (fieldY op) (fieldN op) = op := by
  rw [← hf, formatXY_fields]

theorem formatXK_of_fieldF_fieldNN {op : Word} {f : Nibble} {nn : Byte} (hf : fieldF op = f) (hnn : fieldNN op = nn) :
    formatXK f (fieldX op) nn = op := by
  rw [← hnn, formatXK_of_fieldF hf]

theorem formatXY_of_fieldF_fieldN {op : Word} {f n : Nibble} (hf : fieldF op = f) (hn : fieldN op = n) :
    formatXY f (fieldX op) (fieldY op) n = op := by
  rw [← hn, formatXY_of_fieldF hf]

theorem encode_decodeFamily0 {op : Word} (hf : fieldF op = 0x0) : encode (decodeFamily0 true op) = op := by
  unfold decodeFamily0
  split
  · rfl
  · next hx =>
    have hx : fieldX op = 0 := by simpa using hx
    split
    · next hnn => rw [← formatXK_fields op, hf, hx, hnn]; rfl
    · next hnn => rw [← formatXK_fields op, hf, hx, hnn]; rfl
    · rfl

theorem encode_decodeFamily5 {op : Word} (hf : fieldF op = 0x5) : encode (decodeFamily5 true op) = op := by
  unfold decodeFamily5
  split
  · rfl
  · next hn => exact formatXY_of_fieldF_fieldN hf (by simpa using hn)

theorem encode_decodeFamily8 {op : Word} (hf : fieldF op = 0x8) : encode (decodeFamily8 op) = op := by
  unfold decodeFamily8
  split
  case h_10 => rfl
  all_goals next hn => exact formatXY_of_fieldF_fieldN hf hn

theorem encode_decodeFamily9 {op : Word} (hf : fieldF op = 0x9) : encode (decodeFamily9 true op) = op := by
  unfold decodeFamily9
  split
  · rfl
  · next hn => exact formatXY_of_fieldF_fieldN hf (by simpa using hn)

theorem encode_decodeFamilyE {op : Word} (hf : fieldF op = 0xE) : encode (decodeFamilyE op) = op := by
  unfold decodeFamilyE
  split
  case h_3 => rfl
  all_goals next hnn => exact formatXK_of_fieldF_fieldNN hf hnn

theorem encode_decodeFamilyF {op : Word} (hf : fieldF op = 0xF) : encode (decodeFamilyF op) = op := by
  unfold decodeFamilyF
  split
  case h_10 => rfl
  all_goals next hnn => exact formatXK_of_fieldF_fieldNN hf hnn

theorem encode_decode (op : Word) : encode (decode op) = op := by
  rw [decode, params_strictDecode]
  unfold decodeWith
  split
  case h_1 h => exact encode_decodeFamily0 h
  case h_2 h | h_3 h | h_11 h | h_12 h => exact formatA_of_fieldF h
  case h_4 h | h_5 h | h_7 h | h_8 h | h_13 h => exact formatXK_of_fieldF h
  case h_6 h => exact encode_decodeFamily5 h
  case h_9 h => exact encode_decodeFamily8 h
  case h_10 h => exact encode_decodeFamily9 h
  case h_14 h => exact formatXY_of_fieldF h
  case h_15 h => exact encode_decodeFamilyE h
  case h_16 h0 h1 h2 h3 h4 h5 h6 h7 h8 h9 hA hB hC hD hE =>
    exact encode_decodeFamilyF (nibble_eq_F h0 h1 h2 h3 h4 h5 h6 h7 h8 h9 hA hB hC hD hE)

theorem decode_eq_nopU_iff (op : Word) : decode op = .nopU op ↔ recognised true op = false :=
  dispatchAgreesWithTheOpcodeMap true op

theorem wellFormed_decode (op : Word) : (decode op).wellFormed = true := by
  cases hi : decode op with
  | nopU v =>
    have hv : v = op := by rw [← encode_decode op, hi, encode]
    have hrec : recognised true op = false := (decode_eq_nopU_iff op).mp (hv ▸ hi)
    simp [Instr.wellFormed, hv, hrec]
  | _ => rfl

/-- Settles O42: a format filled with a value's own fields is the value, and `NOP.U` is answered for values of no row only. -/
theorem encodeInvertsDecode : Obligations.EncodeInvertsDecode := fun op => ⟨encode_decode op, wellFormed_decode op⟩

/-! ## Decode after encode: each family's dispatch finds the fields the format put there -/

theorem decode_encode (i : Instr) (h : i.wellFormed = true) : decode (encode i) = i := by
  cases i with
  | nopU op => exact (decode_eq_nopU_iff op).mpr ((Bool.not_eq_true' _).mp h)
  | cls | ret => decide
  | jp | call | ldIdx | jpV0 | seI | sneI | ldI | addI | rnd | drw => simp [encode, decode, decodeWith]
  | seR => simp [encode, decode, decodeWith, decodeFamily5]
  | ldR | or | and | xor | addR | sub | shr | subn | shl => simp [encode, decode, decodeWith, decodeFamily8]
  | sneR => simp [encode, decode, decodeWith, decodeFamily9]
  | skp | sknp => simp [encode, decode, decodeWith, decodeFamilyE]
  | ldVdt | wkr | ldDtv | ldStv | addIdx | ldF | ldB | ldSt | ldLd => simp [encode, decode, decodeWith, decodeFamilyF]

theorem decodeBytes_encodeBytes (i : Instr) (rest : List Byte) :
    decodeBytes (encodeBytes i ++ rest) = .ok (decode (encode i), rest) := by
  simp only [encodeBytes, List.cons_append, List.nil_append, decodeBytes, wordOfBytes_bytes]

/-- Settles O41: dispatch reads back the fields the format placed; for `NOP.U` this is the agreement with the opcode map. -/
theorem decodeInvertsEncode : Obligations.DecodeInvertsEncode := by
  intro i rest h
  rw [decodeBytes_encodeBytes, decode_encode i h]
  exact ⟨rfl, rfl⟩

/-- A value decodes to the well-formed instruction it encodes. -/
theorem decode_of_encode {i : Instr} {op : Word} (h : encode i = op) (hi : i.wellFormed = true) : decode op = i := by
  rw [← h, decode_encode i hi]

/-! ## Rows of a second level: every value of the row decodes to the instruction whose format its fields fill -/

theorem decodesTo_of_formatXY {pattern : Word} {g : Word → Instr} (f n : Nibble)
    (hp : pattern = formatXY f 0 0 n := by decide)
    (henc : ∀ op, encode (g op) = formatXY f (fieldX op) (fieldY op) n := by exact fun _ => rfl)
    (hwf : ∀ op, (g op).wellFormed = true := by exact fun _ => rfl) : DecodesTo 0xF00F pattern g :=
  decodesTo_of_fieldF_fieldN f n hp fun op hf hn =>
    decode_of_encode ((henc op).trans (formatXY_of_fieldF_fieldN hf hn)) (hwf op)

theorem decodesTo_of_formatXK {pattern : Word} {g : Word → Instr} (f : Nibble) (nn : Byte)
    (hp : pattern = formatXK f 0 nn := by decide)
    (henc : ∀ op, encode (g op) = formatXK f (fieldX op) nn := by exact fun _ => rfl)
    (hwf : ∀ op, (g op).wellFormed = true := by exact fun _ => rfl) : DecodesTo 0xF0FF pattern g :=
  decodesTo_of_fieldF_fieldNN f nn hp fun op hf hnn =>
    decode_of_encode ((henc op).trans (formatXK_of_fieldF_fieldNN hf hnn)) (hwf op)

/-- Settles O3: eight closed values. -/
theorem decodeReadsTheSpecsWords : Obligations.DecodeReadsTheSpecsWords := by
  unfold Obligations.DecodeReadsTheSpecsWords
  decide

theorem exec_nopU (op : Word) (s : State) : exec (.nopU op) s = .next s := rfl

/-- Settles O19: with `STRICT_DECODE` = true the dispatch answers `NOP.U` on the values of no row. -/
theorem unrecognisedValueDoesNothing : Obligations.UnrecognisedValueDoesNothing :=
  ⟨fun op h => (decode_eq_nopU_iff op).mpr h, exec_nopU⟩

end Sys2Proof.Proofs
end

section
/-! PROOFS. Copy, logic, subtract, shift and random instructions (42_alu.md). -/

namespace Sys2Proof.Proofs

open Machine

theorem byte_sub_eq_ofNat_mod (a b : Byte) : a - b = BitVec.ofNat 8 ((a.toNat + 256 - b.toNat) % 256) := by
  bv_omega

/-- Settles O10: sub-opcodes 0 to 3 of family 8, each one register write. -/
theorem copyAndLogicWriteOnlyTheirRegister : Obligations.CopyAndLogicWriteOnlyTheirRegister :=
  ⟨decodesTo_of_formatXY 0x8 0x0,
   decodesTo_of_formatXY 0x8 0x1,
   decodesTo_of_formatXY 0x8 0x2,
   decodesTo_of_formatXY 0x8 0x3,
   fun _ _ _ => ⟨rfl, rfl, rfl, rfl⟩⟩

/-- The selected sense of the subtract flag: 1 when no borrow occurs (D6). -/
theorem subtractFlag_byte (a b : Byte) :
    (if subtractFlag params.subFlag a b then 1 else 0 : Byte) = if b.toNat ≤ a.toNat then 1 else 0 := by
  simp only [params_subFlag, subtractFlag, decide_eq_true_eq]

theorem exec_sub (x y : Nibble) (s : State) :
    exec (.sub x y) s = .next
      { s with
        x := (s.x.set x.toNat (BitVec.ofNat 8 (((s.reg x).toNat + 256 - (s.reg y).toNat) % 256)) x.isLt).set 15
          (if (s.reg y).toNat ≤ (s.reg x).toNat then 1 else 0) } := by
  rw [← byte_sub_eq_ofNat_mod, ← subtractFlag_byte]; rfl

theorem exec_subn (x y : Nibble) (s : State) :
    exec (.subn x y) s = .next
      { s with
        x := (s.x.set x.toNat (BitVec.ofNat 8 (((s.reg y).toNat + 256 - (s.reg x).toNat) % 256)) x.isLt).set 15
          (if (s.reg x).toNat ≤ (s.reg y).toNat then 1 else 0) } := by
  rw [← byte_sub_eq_ofNat_mod, ← subtractFlag_byte]; rfl

/-- Settles O12: sub-opcodes 5 and 7, the difference first and the flag of no borrow last. -/
theorem subtractsWriteDifferenceThenNoBorrow : Obligations.SubtractsWriteDifferenceThenNoBorrow :=
  ⟨decodesTo_of_formatXY 0x8 0x5,
   decodesTo_of_formatXY 0x8 0x7,
   fun x y s => ⟨exec_sub x y s, exec_subn x y s⟩⟩

theorem byte_shiftRight_one (v : Byte) : v >>> 1 = BitVec.ofNat 8 (v.toNat / 2) := by
  bv_omega

theorem byte_shiftLeft_one (v : Byte) : v <<< 1 = BitVec.ofNat 8 (v.toNat * 2 % 256) := by
  bv_omega

theorem shrFlag_byte (v : Byte) : (if shrFlag v then 1 else 0 : Byte) = BitVec.ofNat 8 (v.toNat % 2) := by
  rw [shrFlag, BitVec.getLsbD, Nat.testBit_zero]
  rcases Nat.mod_two_eq_zero_or_one v.toNat with h | h <;> simp [h]

theorem shlFlag_byte (v : Byte) : (if shlFlag v then 1 else 0 : Byte) = BitVec.ofNat 8 (v.toNat / 128) := by
  have hbit : v.toNat / 128 = 0 ∨ v.toNat / 128 = 1 := by have := v.isLt; omega
  rw [shlFlag, BitVec.getLsbD, Nat.testBit_eq_decide_div_mod_eq]
  rcases hbit with h | h <;> simp [h]

theorem exec_shr (x y : Nibble) (s : State) :
    exec (.shr x y) s = .next
      { s with
        x := (s.x.set x.toNat (BitVec.ofNat 8 ((s.reg x).toNat / 2)) x.isLt).set 15
          (BitVec.ofNat 8 ((s.reg x).toNat % 2)) } := by
  rw [← byte_shiftRight_one, ← shrFlag_byte]; rfl

theorem exec_shl (x y : Nibble) (s : State) :
    exec (.shl x y) s = .next
      { s with
        x := (s.x.set x.toNat (BitVec.ofNat 8 ((s.reg x).toNat * 2 % 256)) x.isLt).set 15
          (BitVec.ofNat 8 ((s.reg x).toNat / 128)) } := by
  rw [← byte_shiftLeft_one, ← shlFlag_byte]; rfl

/-- Settles O13: sub-opcodes 6 and E, the shifted byte first and the bit shifted out last. -/
theorem shiftsWriteResultThenBitOut : Obligations.ShiftsWriteResultThenBitOut :=
  ⟨decodesTo_of_formatXY 0x8 0x6,
   decodesTo_of_formatXY 0x8 0xE,
   fun x y s => ⟨exec_shr x y s, exec_shl x y s⟩⟩

theorem exec_rnd (x : Nibble) (nn : Byte) (s : State) :
    exec (.rnd x nn) s = .next { s with x := s.x.set x.toNat (s.env.rndIn &&& nn) x.isLt } := rfl

/-- Settles O14: whatever the draw, masking with NN leaves no bit outside NN. -/
theorem randomWritesTheMaskedDraw : Obligations.RandomWritesTheMaskedDraw := by
  refine ⟨decodesTo_of_fieldF 0xC (by decide) fun _ hf => decode_of_encode (formatXK_of_fieldF hf) rfl, fun x nn s => ?_⟩
  refine ⟨s.env.rndIn &&& nn, exec_rnd x nn s, rfl, ?_, ?_⟩
  · rw [BitVec.and_assoc, BitVec.and_not_self]; exact BitVec.and_zero
  · rw [BitVec.toNat_and]
    exact Nat.and_le_right

end Sys2Proof.Proofs
end

section
/-! PROOFS. Control flow and the skips on two registers (40_control_flow.md, 41_skips.md). -/

namespace Sys2Proof.Proofs

open Machine

theorem exec_jp (nnn : Addr12) (s : State) : exec (.jp nnn) s = .next { s with pc := BitVec.ofNat 16 nnn.toNat } := by
  rw [BitVec.ofNat_toNat]; rfl

/-- Settles O15: the row is family 1, and the operand is extended with zeros. -/
theorem jumpSetsPc : Obligations.JumpSetsPc :=
  ⟨decodesTo_of_fieldF 0x1 (by decide) fun _ hf => decode_of_encode (formatA_of_fieldF hf) rfl, exec_jp⟩

/-- A fatal error of the execute phase, with its information a number. -/
theorem raiseExec_ofNat (e : Cause) (info : Nat) (s : State) : raiseExec e (BitVec.ofNat 17 info) s = haltedBy e info s := rfl

theorem exec_ret_of_sp (s : State) (j : Nat) (h : j < stackDepth) (hs : s.sp.val = j + 1) :
    exec .ret s = .next { s with sp := ⟨j, Nat.lt_succ_of_lt h⟩, pc := s.stk[j]'h } := by
  rw [exec, execRet, pop_of_eq_succ s j h hs]

theorem exec_ret_of_empty (s : State) (hs : s.sp = 0) : exec .ret s = .next (haltedBy .stackUnderflow 0 s) := by
  rw [exec, execRet, pop_of_empty s (congrArg Fin.val hs)]; rfl

/-- Settles O16: a pop succeeds exactly on a stack that is not empty. -/
theorem returnPopsOrUnderflows : Obligations.ReturnPopsOrUnderflows :=
  ⟨decodesTo_of_fullMask (by decide), exec_ret_of_sp, exec_ret_of_empty⟩

theorem exec_call_of_lt (nnn : Addr12) (s : State) (h : s.sp.val < stackDepth) :
    exec (.call nnn) s = .next
      { s with stk := s.stk.set s.sp.val s.pc h, sp := ⟨s.sp.val + 1, Nat.succ_lt_succ h⟩, pc := BitVec.ofNat 16 nnn.toNat } := by
  rw [exec, execCall, push_of_lt s s.pc h, BitVec.ofNat_toNat]

theorem exec_call_of_full (nnn : Addr12) (s : State) (hs : s.sp = 16) :
    exec (.call nnn) s = .next (haltedBy .stackOverflow 16 s) := by
  rw [exec, execCall, push_of_full s s.pc (congrArg Fin.val hs)]; rfl

/-- Settles O17: a push succeeds exactly on a stack that is not full. -/
theorem callPushesOrOverflows : Obligations.CallPushesOrOverflows :=
  ⟨decodesTo_of_fieldF 0x2 (by decide) fun _ hf => decode_of_encode (formatA_of_fieldF hf) rfl,
   exec_call_of_lt, exec_call_of_full⟩

/-- Settles O22: the return pops the slot the call wrote. -/
theorem callThenReturnRestoresPc : Obligations.CallThenReturnRestoresPc := by
  intro nnn s fetched h
  exact ⟨_, _, exec_call_of_lt nnn s h, exec_ret_of_sp _ s.sp.val h rfl, Vector.getElem_set_self h, rfl⟩

/-- The target of BNNN needs no reduction: 0xFFF + 0xFF is below 2 ^ 16 (R113). -/
theorem jpV0_target_toNat (nnn : Addr12) (v : Byte) :
    (nnn.setWidth 16 + v.setWidth 16 : Word).toNat = nnn.toNat + v.toNat := by
  bv_omega

/-- Settles O18: the row is family B, and the sum never reaches 2 ^ 16. -/
theorem jumpWithOffsetAddsRegisterZero : Obligations.JumpWithOffsetAddsRegisterZero :=
  ⟨decodesTo_of_fieldF 0xB (by decide) fun _ hf => decode_of_encode (formatA_of_fieldF hf) rfl,
   fun nnn s => ⟨_, rfl, jpV0_target_toNat nnn (s.reg 0)⟩⟩

theorem exec_seR (x y : Nibble) (s : State) :
    exec (.seR x y) s = .next { s with pc := if s.reg x = s.reg y then s.pc + 2 else s.pc } :=
  congrArg Host.Outcome.next (skipIf_beq s (s.reg x) (s.reg y))

theorem exec_sneR (x y : Nibble) (s : State) :
    exec (.sneR x y) s = .next { s with pc := if s.reg x = s.reg y then s.pc else s.pc + 2 } :=
  congrArg Host.Outcome.next (skipIf_bne s (s.reg x) (s.reg y))

/-- Settles O21: families 5 and 9 with N = 0. -/
theorem registerSkipsCompareTwoRegisters : Obligations.RegisterSkipsCompareTwoRegisters :=
  ⟨decodesTo_of_formatXY 0x5 0x0,
   decodesTo_of_formatXY 0x9 0x0,
   fun x y s => ⟨exec_seR x y s, exec_sneR x y s⟩⟩

end Sys2Proof.Proofs
end

section
/-! PROOFS. The sound timer and the key instructions (45_timers_input.md), the framebuffer's output order (10_state.md R35). -/

namespace Sys2Proof.Proofs

open Machine

/-- Settles O36: FX18 is one write, and the buzzer is the test `ST` ≠ 0. -/
theorem soundTimerIsSetAndGatesTheBuzzer : Obligations.SoundTimerIsSetAndGatesTheBuzzer :=
  ⟨decodesTo_of_formatXK 0xF 0x18,
   fun _ _ => ⟨_, rfl, rfl, bne_iff_ne⟩⟩

/-- A key index above 15 halts the machine, whatever the instruction would have done (R176). -/
theorem withKey_haltedBy (x : Nibble) (s : State) (rest : Nat → State) (h : 15 < (s.reg x).toNat) :
    withKey x s rest = haltedBy .keyIndexRange (s.reg x).toNat s := by
  rw [withKey_bad x s rest h, ← raiseExec_ofNat, BitVec.ofNat_toNat]

theorem exec_skp_of_le (x : Nibble) (s : State) (h : (s.reg x).toNat ≤ 15) :
    exec (.skp x) s = .next { s with pc := if s.k.getLsbD (s.reg x).toNat = true then s.pc + 2 else s.pc } := by
  rw [exec, execSkp, withKey_ok x s _ h]; rfl

theorem exec_sknp_of_le (x : Nibble) (s : State) (h : (s.reg x).toNat ≤ 15) :
    exec (.sknp x) s = .next { s with pc := if s.k.getLsbD (s.reg x).toNat = true then s.pc else s.pc + 2 } := by
  rw [exec, execSknp, withKey_ok x s _ h, State.skipIf, nextInsn_eq]
  cases s.k.getLsbD (s.reg x).toNat <;> rfl

theorem exec_wkr_of_le (x : Nibble) (s : State) (h : (s.reg x).toNat ≤ 15) :
    exec (.wkr x) s = .next
      { s with
        pc := if s.kp.getLsbD (s.reg x).toNat = true ∧ s.k.getLsbD (s.reg x).toNat = false then s.pc else s.pc - 2 } := by
  rw [exec, execWkr, withKey_ok x s _ h]
  simp only [prevInsn_eq, Bool.and_eq_true, Bool.not_eq_true']

/-- Settles O37: the key index selects a line at most 15 and is the error above. -/
theorem keySkipsTestTheSampledKey : Obligations.KeySkipsTestTheSampledKey :=
  ⟨decodesTo_of_formatXK 0xE 0x9E,
   decodesTo_of_formatXK 0xE 0xA1,
   fun x s h => ⟨exec_skp_of_le x s h, exec_sknp_of_le x s h⟩,
   fun x s h => ⟨congrArg Host.Outcome.next (withKey_haltedBy x s _ h), congrArg Host.Outcome.next (withKey_haltedBy x s _ h)⟩⟩

/-- Settles O38: the release edge is the one case in which `pc` is not set back. -/
theorem keyWaitFallsThroughOnTheReleaseEdge : Obligations.KeyWaitFallsThroughOnTheReleaseEdge := by
  refine ⟨decodesTo_of_formatXK 0xF 0x0A, fun x s h hkp hk => ?_, fun x s h hedge => ?_, fun x s h => ?_⟩
  · rw [exec_wkr_of_le x s h, if_pos ⟨hkp, hk⟩]
  · rw [exec_wkr_of_le x s h, if_neg hedge]
  · exact congrArg Host.Outcome.next (withKey_haltedBy x s _ h)

/-- Settles O34: bit `y * 64 + x` has quotient `y` and remainder `x` by the row's width. -/
theorem framebufferOutIsRowMajor : Obligations.FramebufferOutIsRowMajor := by
  intro fb y x hy hx
  have hdiv : (y * 64 + x) / fbW = y := by simp only [fbW]; omega
  have hmod : (y * 64 + x) % fbW = x := by simp only [fbW]; omega
  have hlt : y * 64 + x < fbW * fbH := by simp only [fbW, fbH]; omega
  rw [fbOut, BitVec.getLsbD_ofFnLE]
  simp [hlt, hdiv, hmod]

end Sys2Proof.Proofs
end

section
/-! PROOFS. The index register, and the bytes moved between registers and memory (43_index_memory.md). -/

namespace Sys2Proof.Proofs

open Machine

theorem exec_addIdx (x : Nibble) (s : State) :
    exec (.addIdx x) s = .next { s with i := s.i + (s.reg x).setWidth 16 } := rfl

theorem word_add_byte_eq_ofNat_mod (i : Word) (v : Byte) :
    i + v.setWidth 16 = BitVec.ofNat 16 ((i.toNat + v.toNat) % 65536) := by
  bv_omega

/-- Settles O24: the sum of 16-bit values is the one modulo 65536, and D9 writes no flag. -/
theorem addIndexWrapsWithoutFlag : Obligations.AddIndexWrapsWithoutFlag :=
  ⟨decodesTo_of_formatXK 0xF 0x1E,
   fun x s => by rw [exec_addIdx, word_add_byte_eq_ofNat_mod]⟩

/-- A glyph's address fits 16 bits: 0x050 + 5 * 255 does. -/
theorem glyphAddr_toNat (v : Byte) : (glyphAddr v).toNat = 0x050 + 5 * v.toNat := by
  have hv := v.isLt
  rw [glyphAddr, BitVec.toNat_ofNat, two_pow_iWidth]
  exact Nat.mod_eq_of_lt (by simp only [fontBase, glyphStride]; omega)

/-- Settles O25: the address fits `I` for every byte. -/
theorem glyphAddressIsBasePlusFiveTimesX : Obligations.GlyphAddressIsBasePlusFiveTimesX :=
  ⟨decodesTo_of_formatXK 0xF 0x29,
   fun x s => ⟨glyphAddr (s.reg x), rfl, glyphAddr_toNat (s.reg x)⟩⟩

/-- An answer has one next state. -/
theorem next_unique {a : Result} {t u : State} (ht : a = .next t) (hu : a = .next u) : t = u :=
  Host.Outcome.next.inj (ht.symm.trans hu)

/-! ## The bounds check in the statements' terms -/

/-- An instruction that would use an address outside memory halts, with nothing written (R66). -/
theorem withMemory_haltedBy (n : Nat) (s rest : State) (hn : n ≠ 0) (h : 0x1000 < s.i.toNat + n) :
    withMemory n s rest = haltedBy .memOutOfBounds (max s.i.toNat 0x1000) s := by
  rw [withMemory_bad n s rest hn h, raiseExec_ofNat]

/-- The last address of X + 1 bytes lies inside memory exactly if the run does. -/
theorem run_le_memSize {i n : Nat} (h : i + n ≤ 0xFFF) : i + (n + 1) ≤ memSize := by simp only [memSize]; omega

/-! ## Three decimal digits (R153) -/

theorem exec_ldB_of_le (x : Nibble) (s : State) (h : s.i.toNat ≤ 0xFFD) :
    exec (.ldB x) s = .next { s with mem := writeSeq .fault s.mem s.i.toNat (decimalDigits (s.reg x)) } := by
  rw [exec, execLdB, withMemory_ok 3 s _ (.inr (by simp only [memSize]; omega)), params_addrPolicy]

theorem exec_ldB_of_gt (x : Nibble) (s : State) (h : 0xFFD < s.i.toNat) :
    exec (.ldB x) s = .next (haltedBy .memOutOfBounds (max s.i.toNat 0x1000) s) := by
  rw [exec, execLdB, withMemory_haltedBy 3 s _ (by decide) (by omega)]

/-- A byte has three decimal digits, each of them below 10. -/
theorem decimalDigits_eq (v : Byte) : ∃ a b c : Byte, decimalDigits v = [a, b, c] ∧
    a.toNat * 100 + b.toNat * 10 + c.toNat = v.toNat ∧ b.toNat ≤ 9 ∧ c.toNat ≤ 9 := by
  refine ⟨_, _, _, rfl, ?_⟩
  have hv := v.isLt
  simp only [BitVec.toNat_ofNat]
  omega

/-- Settles O26: the run of three bytes at `I` holds the digits, and the bounds check decides the fault. -/
theorem decimalDigitsAreStoredAtI : Obligations.DecimalDigitsAreStoredAtI := by
  refine ⟨decodesTo_of_formatXK 0xF 0x33, fun x s h => ?_, exec_ldB_of_gt⟩
  obtain ⟨a, b, c, hdigits, hvalue, hb, hc⟩ := decimalDigits_eq (s.reg x)
  refine ⟨_, exec_ldB_of_le x s h, ?_⟩
  have hrun : s.i.toNat + [a, b, c].length ≤ memSize := by simp only [List.length_cons, List.length_nil, memSize]; omega
  rw [hdigits]
  simp only [read_writeSeq _ _ _ _ hrun]
  refine ⟨by simpa using hvalue, by simpa using hb, by simpa using hc, fun addr haddr => ?_⟩
  rw [dif_neg (by simp only [List.length_cons, List.length_nil]; omega)]

/-! ## Registers to memory and back (R154, R155) -/

theorem firstRegs_getElem (s : State) (n : Nat) (r : Nibble) (h : r.toNat < (s.firstRegs n).length) :
    (s.firstRegs n)[r.toNat] = s.reg r := by
  simp [State.firstRegs, State.reg]

/-- Memory after FX55 has stored `x[0]`, …, `x[X]`. -/
def storedRegs (x : Nibble) (s : State) : Memory := writeSeq .fault s.mem s.i.toNat (s.firstRegs (x.toNat + 1))

theorem exec_ldSt_of_le (x : Nibble) (s : State) (h : s.i.toNat + x.toNat ≤ 0xFFF) :
    exec (.ldSt x) s = .next { s with mem := storedRegs x s } := by
  rw [exec, execLdSt, withMemory_ok _ s _ (.inr (run_le_memSize h))]; rfl

theorem exec_ldSt_of_gt (x : Nibble) (s : State) (h : 0xFFF < s.i.toNat + x.toNat) :
    exec (.ldSt x) s = .next (haltedBy .memOutOfBounds (max s.i.toNat 0x1000) s) := by
  rw [exec, execLdSt, withMemory_haltedBy _ s _ (Nat.succ_ne_zero _) (by omega)]

theorem read_storedRegs (x : Nibble) (s : State) (h : s.i.toNat + x.toNat ≤ 0xFFF) (r : Nibble) (hr : r.toNat ≤ x.toNat) :
    (storedRegs x s).read (s.i.toNat + r.toNat) = s.reg r := by
  have hlen : (s.firstRegs (x.toNat + 1)).length = x.toNat + 1 := s.firstRegs_length _ x.isLt
  rw [storedRegs, read_writeSeq _ _ _ _ (by rw [hlen]; exact run_le_memSize h), dif_pos (by rw [hlen]; omega)]
  simp only [Nat.add_sub_cancel_left]
  exact firstRegs_getElem s _ r (by rw [hlen]; omega)

theorem read_storedRegs_outside (x : Nibble) (s : State) (h : s.i.toNat + x.toNat ≤ 0xFFF) (a : Nat)
    (ha : a < s.i.toNat ∨ s.i.toNat + x.toNat < a) : (storedRegs x s).read a = s.mem.read a := by
  have hlen : (s.firstRegs (x.toNat + 1)).length = x.toNat + 1 := s.firstRegs_length _ x.isLt
  rw [storedRegs, read_writeSeq _ _ _ _ (by rw [hlen]; exact run_le_memSize h), dif_neg (by rw [hlen]; omega)]

/-- Settles O27: the run of X + 1 bytes at `I` holds the registers, and the bounds check decides the fault. -/
theorem storeCopiesRegistersToMemory : Obligations.StoreCopiesRegistersToMemory :=
  ⟨decodesTo_of_formatXK 0xF 0x55,
   fun x s h => ⟨storedRegs x s, exec_ldSt_of_le x s h, read_storedRegs x s h, read_storedRegs_outside x s h⟩,
   exec_ldSt_of_gt⟩

/-- The registers after FX65 has loaded `x[0]`, …, `x[X]`. -/
def loadedRegs (x : Nibble) (s : State) : Vector Byte nRegs :=
  fillRegs s.x 0 (readSeq .fault s.mem s.i.toNat (x.toNat + 1))

theorem exec_ldLd_of_le (x : Nibble) (s : State) (h : s.i.toNat + x.toNat ≤ 0xFFF) :
    exec (.ldLd x) s = .next { s with x := loadedRegs x s } := by
  rw [exec, execLdLd, withMemory_ok _ s _ (.inr (run_le_memSize h))]; rfl

theorem exec_ldLd_of_gt (x : Nibble) (s : State) (h : 0xFFF < s.i.toNat + x.toNat) :
    exec (.ldLd x) s = .next (haltedBy .memOutOfBounds (max s.i.toNat 0x1000) s) := by
  rw [exec, execLdLd, withMemory_haltedBy _ s _ (Nat.succ_ne_zero _) (by omega)]

theorem loadedRegs_getElem (x : Nibble) (s : State) (r : Nibble) : (loadedRegs x s)[r.toNat]'r.isLt =
    if r.toNat ≤ x.toNat then s.mem.read (s.i.toNat + r.toNat) else s.reg r := by
  rw [loadedRegs, fillRegs_getElem]
  simp only [readSeq_length, readSeq_getElem, Nat.zero_le, true_and, Nat.zero_add, Nat.sub_zero, Nat.lt_succ_iff]
  rfl

/-- Settles O28: the first X + 1 registers hold the run at `I`, and the bounds check decides the fault. -/
theorem loadCopiesMemoryToRegisters : Obligations.LoadCopiesMemoryToRegisters :=
  ⟨decodesTo_of_formatXK 0xF 0x65,
   fun x s h => ⟨loadedRegs x s, exec_ldLd_of_le x s h, loadedRegs_getElem x s⟩, exec_ldLd_of_gt⟩

/-- Settles O29: `I` is unchanged by the store (D8), so the load reads where the store wrote. -/
theorem storeThenLoadRestoresRegisters : Obligations.StoreThenLoadRestoresRegisters := by
  intro x s t u v h hst hld r hr
  obtain rfl := next_unique (exec_ldSt_of_le x s h) hst
  obtain rfl := next_unique (exec_ldLd_of_le x _ (by exact h)) hld
  calc (loadedRegs x { s with mem := storedRegs x s, x := v })[r.toNat]'r.isLt
      = (storedRegs x s).read (s.i.toNat + r.toNat) := by rw [loadedRegs_getElem, if_pos hr]
    _ = s.reg r := read_storedRegs x s h r hr

/-- Settles O30: the two bytes fetched are two neighbouring registers. -/
theorem storedBytesAreFetchedAtOnce : Obligations.StoredBytesAreFetchedAtOnce := by
  intro x s t r q h hst hq hqx
  obtain rfl := next_unique (exec_ldSt_of_le x s h) hst
  have hpc : (BitVec.ofNat 16 (s.i.toNat + r.toNat)).toNat = s.i.toNat + r.toNat := by
    rw [BitVec.toNat_ofNat]; omega
  refine ⟨_, fetch_ok _ (hpc.trans_le (by omega)), ?_⟩
  rw [wordOfBytes_toNat]
  simp only [hpc]
  rw [read_storedRegs x s h r (by omega), Nat.add_assoc, ← hq, read_storedRegs x s h q hqx]

end Sys2Proof.Proofs
end

section
/-! PROOFS. Drawing a sprite (44_display.md). -/

namespace Sys2Proof.Proofs

open Machine

/-- Equal cells inside the grid make equal framebuffers. -/
theorem framebuffer_ext {a b : Framebuffer} (h : ∀ r c : Nat, r < 32 → c < 64 → cell a r c = cell b r c) : a = b := by
  ext r hr c hc
  have hcell := h r c hr hc
  simpa only [cell, Vector.getElem?_eq_getElem hr, Option.getD_some, BitVec.getLsbD_eq_getElem hc] using hcell

/-- A set bit that is drawn lies inside the grid (R161: rows and columns outside it are not drawn). -/
theorem bytesSet_inside {x0 y : Nat} {bytes : List Byte} (hfit : y + bytes.length ≤ fbH) {r c : Nat}
    (h : bytesSet x0 y bytes r c = true) : r < 32 ∧ c < 64 := by
  unfold bytesSet at h
  by_cases hr : r - y < bytes.length
  · simp only [rowSets, Bool.and_eq_true, decide_eq_true_eq] at h
    obtain ⟨hy, ⟨-, -, hc⟩, -⟩ := h
    exact ⟨by simp only [fbH] at hfit; omega, hc⟩
  · rw [List.getD_eq_default _ _ (Nat.le_of_not_lt hr)] at h
    simp at h

/-- The bytes of the sprite DXYN draws. -/
def spriteBytes (y n : Nibble) (s : State) : List Byte := readSeq .fault s.mem s.i.toNat (rowsDrawn y n s)

@[simp] theorem spriteBytes_length (y n : Nibble) (s : State) : (spriteBytes y n s).length = rowsDrawn y n s :=
  readSeq_length _ _ _ _

theorem spriteBytes_getElem (y n : Nibble) (s : State) {j : Nat} (h : j < (spriteBytes y n s).length) :
    (spriteBytes y n s)[j] = s.mem.read (s.i.toNat + j) :=
  readSeq_getElem _ _ _ _ h

theorem spriteBytes_fit (y n : Nibble) (s : State) : (s.reg y).toNat % 32 + (spriteBytes y n s).length ≤ fbH := by
  simp only [spriteBytes_length, rowsDrawn, fbH]; omega

/-- Inside the grid the statement's set bits are those of the bytes drawn from the sprite's origin. -/
theorem bytesSet_spriteBytes (x y n : Nibble) (s : State) {r c : Nat} (hc : c < 64) :
    bytesSet ((s.reg x).toNat % 64) ((s.reg y).toNat % 32) (spriteBytes y n s) r c = spriteSets x y n s r c := by
  unfold bytesSet spriteSets rowSets
  by_cases hr : r - (s.reg y).toNat % 32 < rowsDrawn y n s
  · have hr' : r - (s.reg y).toNat % 32 < (spriteBytes y n s).length := by rwa [spriteBytes_length]
    rw [List.getD_eq_getElem _ _ hr', spriteBytes_getElem, ← Bool.and_assoc, ← Bool.decide_and]
    congr 2
    simp only [fbW, eq_iff_iff]
    omega
  · rw [List.getD_eq_default _ _ (by rw [spriteBytes_length]; omega)]
    have hout : ¬ ((s.reg y).toNat % 32 ≤ r ∧ r < (s.reg y).toNat % 32 + rowsDrawn y n s ∧
        (s.reg x).toNat % 64 ≤ c ∧ c < (s.reg x).toNat % 64 + 8) := by omega
    simp only [decide_eq_false hout, BitVec.ofNat_eq_ofNat, BitVec.getLsbD_zero, Bool.and_false, Bool.false_and]

/-- What DXYN draws: each set bit over a cell of the grid flips it, and the collision is that such a cell was set. -/
theorem spriteDrawn_spec (x y n : Nibble) (s : State) :
    (∀ r c : Nat, r < 32 → c < 64 → cell (spriteDrawn x y n s).1 r c = (cell s.fb r c ^^ spriteSets x y n s r c)) ∧
    ((spriteDrawn x y n s).2 = true ↔
      ∃ r c : Nat, r < 32 ∧ c < 64 ∧ spriteSets x y n s r c = true ∧ cell s.fb r c = true) := by
  have hdrawn : spriteDrawn x y n s =
      drawRows ((s.reg x).toNat % 64) ((s.reg y).toNat % 32) (spriteBytes y n s) (s.fb, false) := rfl
  obtain ⟨hcells, hcollision⟩ :=
    drawRows_spec ((s.reg x).toNat % 64) (spriteBytes y n s) ((s.reg y).toNat % 32) (s.fb, false) (spriteBytes_fit y n s)
  refine ⟨fun r c _ hc => ?_, ?_⟩
  · rw [hdrawn, hcells, bytesSet_spriteBytes x y n s hc]
  · rw [hdrawn, hcollision]
    constructor
    · rintro (hfalse | ⟨r, c, hset, hcell⟩)
      · exact absurd hfalse Bool.false_ne_true
      · obtain ⟨hr, hc⟩ := bytesSet_inside (spriteBytes_fit y n s) hset
        exact ⟨r, c, hr, hc, bytesSet_spriteBytes x y n s hc ▸ hset, hcell⟩
    · rintro ⟨r, c, -, hc, hset, hcell⟩
      exact .inr ⟨r, c, (bytesSet_spriteBytes x y n s hc).trans hset, hcell⟩

/-! ## The instruction -/

/-- The byte a flag writes is 0 or 1, and 1 exactly for the flag set. -/
theorem flagByte_spec (b : Bool) :
    ((if b then 1 else 0 : Byte) = 0 ∨ (if b then 1 else 0 : Byte) = 1) ∧ ((if b then 1 else 0 : Byte) = 1 ↔ b = true) := by
  cases b <;> decide

theorem exec_drw_of_le (x y n : Nibble) (s : State) (h : rowsDrawn y n s = 0 ∨ s.i.toNat + rowsDrawn y n s - 1 ≤ 0xFFF) :
    exec (.drw x y n) s = .next
      { s with fb := (spriteDrawn x y n s).1, x := s.x.set 15 (if (spriteDrawn x y n s).2 then 1 else 0) } :=
  congrArg Host.Outcome.next (withMemory_ok (rowsDrawn y n s) s _ (h.imp_right fun h => by simp only [memSize]; omega))

theorem exec_drw_of_gt (x y n : Nibble) (s : State) (hn : rowsDrawn y n s ≠ 0) (h : 0xFFF < s.i.toNat + rowsDrawn y n s - 1) :
    exec (.drw x y n) s = .next (haltedBy .memOutOfBounds (max s.i.toNat 0x1000) s) :=
  congrArg Host.Outcome.next (withMemory_haltedBy (rowsDrawn y n s) s _ hn (by omega))

/-- DXYN inside memory, cell by cell. -/
theorem exec_drw_spec (x y n : Nibble) (s : State) (h : rowsDrawn y n s = 0 ∨ s.i.toNat + rowsDrawn y n s - 1 ≤ 0xFFF) :
    ∃ (fb : Framebuffer) (flag : Byte),
      exec (.drw x y n) s = .next { s with fb := fb, x := s.x.set 15 flag } ∧
      (∀ r c : Nat, r < 32 → c < 64 → cell fb r c = (cell s.fb r c ^^ spriteSets x y n s r c)) ∧
      (flag = 0 ∨ flag = 1) ∧
      (flag = 1 ↔ ∃ r c : Nat, r < 32 ∧ c < 64 ∧ spriteSets x y n s r c = true ∧ cell s.fb r c = true) := by
  obtain ⟨hcells, hcollision⟩ := spriteDrawn_spec x y n s
  obtain ⟨hflag, hone⟩ := flagByte_spec (spriteDrawn x y n s).2
  exact ⟨_, _, exec_drw_of_le x y n s h, hcells, hflag, hone.trans hcollision⟩

/-- Settles O32: the sprite's rows flip the cells under their set bits, and the bounds check decides the fault. -/
theorem spriteFlipsItsCellsAndReportsCollision : Obligations.SpriteFlipsItsCellsAndReportsCollision :=
  ⟨decodesTo_of_fieldF 0xD (by decide) fun _ hf => decode_of_encode (formatXY_of_fieldF hf) rfl,
   exec_drw_spec, exec_drw_of_gt⟩

/-- A DXYN that did not halt the machine drew inside memory. -/
theorem drw_inside_of_running {x y n : Nibble} {s t : State} (h : exec (.drw x y n) s = .next t) (ht : t.halt = false) :
    rowsDrawn y n s = 0 ∨ s.i.toNat + rowsDrawn y n s - 1 ≤ 0xFFF := by
  by_contra hout
  obtain ⟨hn, hgt⟩ := not_or.mp hout
  obtain rfl := next_unique (exec_drw_of_gt x y n s hn (Nat.lt_of_not_le hgt)) h
  exact Bool.noConfusion ht

/-! ## The same sprite again -/

theorem reg_of_drawn_ne (s : State) (fb : Framebuffer) (flag : Byte) {r : Nibble} (hr : r ≠ 15) :
    ({ s with fb := fb, x := s.x.set 15 flag } : State).reg r = s.reg r :=
  (State.setReg_reg { s with fb := fb } 15 r flag).trans (if_neg hr)

theorem reg_of_drawn_flag (s : State) (fb : Framebuffer) (flag : Byte) :
    ({ s with fb := fb, x := s.x.set 15 flag } : State).reg 15 = flag :=
  (State.setReg_reg { s with fb := fb } 15 15 flag).trans (if_pos rfl)

theorem rowsDrawn_congr {y n : Nibble} {s t : State} (hy : t.reg y = s.reg y) : rowsDrawn y n t = rowsDrawn y n s := by
  simp only [rowsDrawn, hy]

theorem spriteSets_congr {x y n : Nibble} {s t : State} (hx : t.reg x = s.reg x) (hy : t.reg y = s.reg y)
    (hi : t.i = s.i) (hm : t.mem = s.mem) : spriteSets x y n t = spriteSets x y n s := by
  funext r c
  unfold spriteSets rowsDrawn
  rw [hx, hy, hi, hm]

/-- Settles O33: the flag is not one of the sprite's coordinates, so the second draw flips the same cells back. -/
theorem spriteDrawnTwiceRestoresTheFramebuffer : Obligations.SpriteDrawnTwiceRestoresTheFramebuffer := by
  intro x y n s t u hx hy hs hst ht htu
  have hin := drw_inside_of_running hst ht
  obtain ⟨fb, flag, hexec, hcells, hflag, hcollision⟩ := exec_drw_spec x y n s hin
  obtain rfl := next_unique hexec hst
  have hrows := rowsDrawn_congr (n := n) (reg_of_drawn_ne s fb flag hy)
  have hsets := spriteSets_congr (n := n) (reg_of_drawn_ne s fb flag hx) (reg_of_drawn_ne s fb flag hy) rfl rfl
  obtain ⟨fb', flag', hexec', hcells', -, hcollision'⟩ := exec_drw_spec x y n _ (hrows ▸ hin)
  obtain rfl := next_unique hexec' htu
  rw [hsets] at hcells' hcollision'
  refine ⟨framebuffer_ext fun r c hr hc => ?_, hs, fun hempty => ⟨?_, ?_⟩⟩
  · rw [hcells' r c hr hc, hcells r c hr hc, Bool.xor_assoc, Bool.xor_self, Bool.xor_false]
  · rw [reg_of_drawn_flag]
    refine hflag.resolve_right fun hone => ?_
    obtain ⟨r, c, -, -, -, hset⟩ := hcollision.mp hone
    rw [hempty] at hset
    exact Bool.false_ne_true hset
  · rw [reg_of_drawn_flag, hcollision']
    refine exists_congr fun r => exists_congr fun c => ?_
    refine and_congr_right fun hr => and_congr_right fun hc => and_iff_left_of_imp fun hset => ?_
    rw [hcells r c hr hc, hempty, hset, Bool.false_xor]

end Sys2Proof.Proofs
end

section
/-! PROOFS. What an instruction can do, said once for all 35 (30_encoding.md R93, phase 4): its answer is the old state with
the fields of one of eleven shapes changed, or the old state halted by its one error. -/

namespace Sys2Proof.Proofs

open Machine

/-- The shapes of an instruction's next state. Each constructor names the instructions of its shape and what they write. -/
inductive Effect (s : State) : Instr → State → Prop where
  /-- Registers alone: those the instruction names, the flag of a flag writer 0 or 1 (10_state.md R20, R21). -/
  | writesRegs {i : Instr} (v : Vector Byte nRegs)
      (named : ∀ r, ({ s with x := v } : State).reg r ≠ s.reg r → mayWriteReg i r)
      (flag : writesFlag i → ({ s with x := v } : State).reg 15 = 0 ∨ ({ s with x := v } : State).reg 15 = 1) :
      Effect s i { s with x := v }
  /-- `pc` alone. The target stays within 10_state.md R38's bound when `pc` comes from a fetch. -/
  | movesPc {i : Instr} (target : Word) (transfers : transfersControl i)
      (bound : 2 ≤ s.pc.toNat → s.pc.toNat ≤ 0x1000 → target.toNat ≤ 0x10FE) : Effect s i { s with pc := target }
  /-- A return address is popped into `pc`, its slot kept (40_control_flow.md R110). -/
  | pops (j : Nat) (hj : j < stackDepth) (hs : s.sp.val = j + 1) :
      Effect s .ret { s with sp := ⟨j, Nat.lt_succ_of_lt hj⟩, pc := s.stk[j]'hj }
  /-- `pc` is pushed and then set (40_control_flow.md R112). -/
  | pushes (nnn : Addr12) (hs : s.sp.val < stackDepth) :
      Effect s (.call nnn)
        { s with stk := s.stk.set s.sp.val s.pc hs, sp := ⟨s.sp.val + 1, Nat.succ_lt_succ hs⟩, pc := nnn.setWidth 16 }
  /-- `I` alone (10_state.md R24). -/
  | setsI {i : Instr} (a : Word) (index : (∃ nnn, i = .ldIdx nnn) ∨ (∃ x, i = .addIdx x) ∨ ∃ x, i = .ldF x) :
      Effect s i { s with i := a }
  /-- `DT` alone. -/
  | setsDt (x : Nibble) : Effect s (.ldDtv x) { s with dt := s.reg x }
  /-- `ST` alone. -/
  | setsSt (x : Nibble) : Effect s (.ldStv x) { s with st := s.reg x }
  /-- A run of bytes in memory (20_memory.md R65). -/
  | stores {i : Instr} (base : Nat) (bytes : List Byte) (store : ∃ x, i = .ldB x ∨ i = .ldSt x) :
      Effect s i { s with mem := writeSeq .fault s.mem base bytes }
  /-- The framebuffer is cleared (44_display.md R160). -/
  | clears : Effect s .cls { s with fb := clearFb }
  /-- The framebuffer and the flag (44_display.md R161). -/
  | draws (x y n : Nibble) (fb : Framebuffer) (collision : Bool) :
      Effect s (.drw x y n) ({ s with fb := fb }.setFlag collision)
  /-- Nothing (40_control_flow.md R114). -/
  | nothing (op : Word) : Effect s (.nopU op) s
  /-- The fault record alone (60_exceptions.md R188). -/
  | raises {i : Instr} (e : Cause) (info : Info) (may : mayRaise i e) : Effect s i (raiseExec e info s)

/-! ## Writes of registers -/

theorem eq_of_setReg_reg_ne {s : State} {r q : Nibble} {v : Byte} (h : (s.setReg r v).reg q ≠ s.reg q) : q = r := by
  by_contra hq
  exact h (by rw [State.setReg_reg, if_neg hq])

theorem setFlag_reg_flag (s : State) (f : Bool) : (s.setFlag f).reg 15 = 0 ∨ (s.setFlag f).reg 15 = 1 := by
  rw [State.setFlag_eq, State.setReg_reg, if_pos rfl]
  exact (flagByte_spec f).1

theorem effect_setReg {i : Instr} (s : State) (x : Nibble) (v : Byte) (named : mayWriteReg i x) (hi : ¬ writesFlag i) :
    Effect s i (s.setReg x v) :=
  .writesRegs _ (fun _ h => eq_of_setReg_reg_ne h ▸ named) fun h => absurd h hi

theorem effect_setResultAndFlag {i : Instr} (s : State) (x : Nibble) (v : Byte) (f : Bool) (named : mayWriteReg i x)
    (flag : mayWriteReg i 15) : Effect s i (s.setResultAndFlag x v f) := by
  refine .writesRegs _ (fun r h => ?_) fun _ => setFlag_reg_flag (s.setReg x v) f
  by_cases hr : (s.setReg x v).reg r = s.reg r
  · exact eq_of_setReg_reg_ne (hr ▸ h : ((s.setReg x v).setReg flagReg _).reg r ≠ (s.setReg x v).reg r) ▸ flag
  · exact eq_of_setReg_reg_ne hr ▸ named

theorem effect_loadedRegs (x : Nibble) (s : State) : Effect s (.ldLd x) { s with x := loadedRegs x s } := by
  refine .writesRegs _ (fun r h => ?_) fun h => absurd h id
  by_contra hr
  exact h ((loadedRegs_getElem x s r).trans (if_neg hr))

/-! ## Writes of `pc` -/

theorem skip_bound {pc : Word} (c : Bool) (h : pc.toNat ≤ 0x1000) : (if c then pc + 2 else pc).toNat ≤ 0x10FE := by
  cases c
  · simp only [Bool.false_eq_true, if_false]; omega
  · simp only [if_true]; bv_omega

theorem effect_skipIf {i : Instr} (s : State) (c : Bool) (transfers : transfersControl i) : Effect s i (s.skipIf c) :=
  .movesPc _ transfers fun _ h => skip_bound c h

theorem wait_bound {pc : Word} (edge : Bool) (hlo : 2 ≤ pc.toNat) (h : pc.toNat ≤ 0x1000) :
    (if edge then pc else pc - 2).toNat ≤ 0x10FE := by
  cases edge
  · simp only [Bool.false_eq_true, if_false]; bv_omega
  · simp only [if_true]; omega

theorem addr12_toNat (nnn : Addr12) : (nnn.setWidth 16).toNat = nnn.toNat := by bv_omega

/-! ## Instructions that check something first -/

theorem effect_withMemory {i : Instr} {s rest : State} (n : Nat) (may : mayRaise i .memOutOfBounds) (h : Effect s i rest) :
    Effect s i (withMemory n s rest) := by
  rcases withMemory_cases n s rest with hok | ⟨info, hbad⟩
  · rw [hok]; exact h
  · rw [hbad]; exact .raises _ info may

theorem effect_withKey {i : Instr} {s : State} {rest : Nat → State} (x : Nibble) (may : mayRaise i .keyIndexRange)
    (h : ∀ k, Effect s i (rest k)) : Effect s i (withKey x s rest) := by
  rcases withKey_cases x s rest with ⟨k, hok⟩ | ⟨info, hbad⟩
  · rw [hok]; exact h k
  · rw [hbad]; exact .raises _ info may

theorem exec_ret_effect (s : State) : ∃ t, exec .ret s = .next t ∧ Effect s .ret t := by
  rcases pop_cases s with ⟨-, hpop⟩ | ⟨j, hj, hs, -⟩
  · exact ⟨_, by rw [exec, execRet, hpop], .raises _ 0 rfl⟩
  · exact ⟨_, exec_ret_of_sp s j hj hs, .pops j hj hs⟩

theorem exec_call_effect (nnn : Addr12) (s : State) : ∃ t, exec (.call nnn) s = .next t ∧ Effect s (.call nnn) t := by
  rcases push_cases s s.pc with ⟨-, hpush⟩ | ⟨hs, hpush⟩
  · exact ⟨_, by rw [exec, execCall, hpush], .raises _ _ rfl⟩
  · exact ⟨_, by rw [exec, execCall, hpush], .pushes nnn hs⟩

/-- Every instruction answers a next state of its shape. -/
theorem exec_effect (i : Instr) (s : State) : ∃ t, exec i s = .next t ∧ Effect s i t := by
  cases i with
  | cls => exact ⟨_, rfl, .clears⟩
  | ret => exact exec_ret_effect s
  | jp nnn => exact ⟨_, rfl, .movesPc _ trivial fun _ _ => by rw [addr12_toNat]; omega⟩
  | call nnn => exact exec_call_effect nnn s
  | seI | sneI | seR | sneR => exact ⟨_, rfl, effect_skipIf s _ trivial⟩
  | ldI | addI | ldR | or | and | xor | rnd | ldVdt => exact ⟨_, rfl, effect_setReg s _ _ rfl id⟩
  | addR | sub | shr | subn | shl => exact ⟨_, rfl, effect_setResultAndFlag s _ _ _ (.inl rfl) (.inr rfl)⟩
  | ldIdx nnn => exact ⟨_, rfl, .setsI _ (.inl ⟨nnn, rfl⟩)⟩
  | addIdx x => exact ⟨_, rfl, .setsI _ (.inr (.inl ⟨x, rfl⟩))⟩
  | ldF x => exact ⟨_, rfl, .setsI _ (.inr (.inr ⟨x, rfl⟩))⟩
  | jpV0 nnn =>
    refine ⟨_, rfl, .movesPc _ trivial fun _ _ => ?_⟩
    have hreg := (s.reg 0).isLt
    rw [jpV0_target_toNat]
    omega
  | drw x y n => exact ⟨_, rfl, effect_withMemory _ rfl (.draws x y n _ _)⟩
  | skp x | sknp x => exact ⟨_, rfl, effect_withKey x rfl fun k => effect_skipIf s _ trivial⟩
  | wkr x => exact ⟨_, rfl, effect_withKey x rfl fun k => .movesPc _ trivial fun hlo h => wait_bound _ hlo h⟩
  | ldDtv x => exact ⟨_, rfl, .setsDt x⟩
  | ldStv x => exact ⟨_, rfl, .setsSt x⟩
  | ldB x => exact ⟨_, rfl, effect_withMemory _ rfl (.stores _ _ ⟨x, .inl rfl⟩)⟩
  | ldSt x => exact ⟨_, rfl, effect_withMemory _ rfl (.stores _ _ ⟨x, .inr rfl⟩)⟩
  | ldLd x => exact ⟨_, rfl, effect_withMemory _ rfl (effect_loadedRegs x s)⟩
  | nopU op => exact ⟨_, rfl, .nothing op⟩

/-- The inversion of an instruction's answer. -/
theorem effect_of_exec {i : Instr} {s t : State} (h : exec i s = .next t) : Effect s i t := by
  obtain ⟨u, hu, heffect⟩ := exec_effect i s
  exact next_unique hu h ▸ heffect

end Sys2Proof.Proofs
end

section
/-! PROOFS. What only the named instructions change (10_state.md, 20_memory.md section 6, 44_display.md R163, 60_exceptions.md
section 2): in each shape of a next state but the named one, the field is unchanged. -/

namespace Sys2Proof.Proofs

open Machine

/-- Settles O47: a run of bytes is written by the two stores alone. -/
theorem onlyStoresChangeMemory : Obligations.OnlyStoresChangeMemory := by
  intro i s t h hmem
  cases effect_of_exec h with
  | stores base bytes store => exact store
  | _ => exact absurd rfl hmem

/-- Settles O48: the framebuffer is written by the clear and the draw alone. -/
theorem onlyClearAndDrawChangeTheFramebuffer : Obligations.OnlyClearAndDrawChangeTheFramebuffer := by
  intro i s t h hfb
  cases effect_of_exec h with
  | clears => exact .inl rfl
  | draws x y n => exact .inr ⟨x, y, n, rfl⟩
  | _ => exact absurd rfl hfb

/-- Settles O49: `I` is written in one shape, which names its instructions. -/
theorem onlyIndexInstructionsChangeI : Obligations.OnlyIndexInstructionsChangeI := by
  intro i s t h hi
  cases effect_of_exec h with
  | setsI a index => exact index
  | _ => exact absurd rfl hi

/-- Settles O51: each timer is written by one instruction alone. -/
theorem onlyTimerInstructionsChangeTimers : Obligations.OnlyTimerInstructionsChangeTimers := by
  intro i s t h
  cases effect_of_exec h with
  | setsDt x => exact ⟨fun _ => ⟨x, rfl⟩, fun hst => absurd rfl hst⟩
  | setsSt x => exact ⟨fun hdt => absurd rfl hdt, fun _ => ⟨x, rfl⟩⟩
  | _ => exact ⟨fun hdt => absurd rfl hdt, fun hst => absurd rfl hst⟩

/-- Settles O52: no shape writes a sample or the host side. -/
theorem noInstructionChangesSamplesOrPorts : Obligations.NoInstructionChangesSamplesOrPorts := by
  intro i s t h
  cases effect_of_exec h with
  | _ => exact ⟨rfl, rfl, rfl⟩

/-- Settles O53: each shape that writes registers says which. -/
theorem registersChangeOnlyWhereNamed : Obligations.RegistersChangeOnlyWhereNamed := by
  intro i s t r h hr
  cases effect_of_exec h with
  | writesRegs v named => exact named r hr
  | draws x y n fb collision => exact eq_of_setReg_reg_ne (s := { s with fb := fb }) hr
  | _ => exact absurd rfl hr

/-- Settles O54: the three shapes that write `pc` are control transfers. -/
theorem onlyControlTransfersChangePc : Obligations.OnlyControlTransfersChangePc := by
  intro i s t h hpc
  cases effect_of_exec h with
  | movesPc target transfers => exact transfers
  | pops | pushes => exact trivial
  | _ => exact absurd rfl hpc

theorem not_writesFlag_of_transfersControl {i : Instr} (h : transfersControl i) : ¬ writesFlag i := by
  intro hflag
  cases i with
  | addR | sub | shr | subn | shl | drw => exact h
  | _ => exact hflag

/-- Settles O55: the flag is what those shapes write last. -/
theorem flagIsZeroOrOneAfterFlagWriters : Obligations.FlagIsZeroOrOneAfterFlagWriters := by
  intro i s t hi hs h ht
  cases effect_of_exec h with
  | writesRegs v named flag => exact flag hi
  | draws x y n fb collision => exact setFlag_reg_flag { s with fb := fb } collision
  | movesPc target transfers => exact absurd hi (not_writesFlag_of_transfersControl transfers)
  | setsI a index => rcases index with ⟨nnn, rfl⟩ | ⟨x, rfl⟩ | ⟨x, rfl⟩ <;> exact absurd hi id
  | stores base bytes store => obtain ⟨x, rfl | rfl⟩ := store <;> exact absurd hi id
  | raises e info may => exact absurd ht Bool.noConfusion
  | _ => exact absurd hi id

/-- An instruction leaves the fault record alone, or raises its one error with no other effect. -/
theorem exec_fault_record {i : Instr} {s t : State} (hs : s.halt = false) (h : exec i s = .next t) :
    (t.halt = false ∧ t.cause = s.cause ∧ t.fpc = s.fpc ∧ t.finfo = s.finfo) ∨
    (mayRaise i t.cause ∧ t = { s with halt := true, cause := t.cause, fpc := s.pc - 2, finfo := t.finfo }) := by
  cases effect_of_exec h with
  | raises e info may => exact .inr ⟨may, rfl⟩
  | _ => exact .inl ⟨hs, rfl, rfl, rfl⟩

/-- Settles O56: one shape writes the fault record, and nothing else. -/
theorem fatalErrorsArePrecise : Obligations.FatalErrorsArePrecise :=
  ⟨fun _ _ _ => exec_fault_record, fun _ => ⟨rfl, rfl, rfl, rfl⟩, rfl, rfl, rfl, rfl, rfl, rfl⟩

end Sys2Proof.Proofs
end

section
/-! PROOFS. What only the named instructions read (10_state.md sections 4, 5, 7, 10): a change of fields that an instruction
does not use passes through it. -/

namespace Sys2Proof.Proofs

open Machine

/-- A change of the fields that few instructions use, each by a function of its own; a field that is not named is kept. -/
structure Change where
  stk : Vector Word 16 → Vector Word 16 := id
  sp : Fin 17 → Fin 17 := id
  dt : Byte → Byte := id
  st : Byte → Byte := id
  k : BitVec 16 → BitVec 16 := id
  kp : BitVec 16 → BitVec 16 := id
  rndIn : Byte → Byte := id

/-- The state with a change made. -/
def Change.apply (c : Change) (s : State) : State :=
  { s with
    stk := c.stk s.stk, sp := c.sp s.sp, dt := c.dt s.dt, st := c.st s.st, k := c.k s.k, kp := c.kp s.kp
    env := { s.env with rndIn := c.rndIn s.env.rndIn } }

/-- A change passes through the bounds check if it passes through the rest of the instruction. -/
theorem withMemory_change (c : Change) {n : Nat} {s rest rest' : State} (h : rest' = c.apply rest) :
    (.next (withMemory n (c.apply s) rest') : Result) = mapNext c.apply (.next (withMemory n s rest)) := by
  simp only [withMemory, mapNext, show (c.apply s).i = s.i from rfl, h]
  split <;> rfl

/-- A change passes through the key index if it passes through the rest of the instruction. -/
theorem withKey_change (c : Change) {x : Nibble} {s : State} {rest rest' : Nat → State}
    (h : ∀ k, rest' k = c.apply (rest k)) :
    (.next (withKey x (c.apply s) rest') : Result) = mapNext c.apply (.next (withKey x s rest)) := by
  simp only [withKey, mapNext, show (c.apply s).reg x = s.reg x from rfl, h]
  split <;> rfl

theorem exec_ret_change (dt st rndIn : Byte → Byte) (k kp : BitVec 16 → BitVec 16) (s : State) :
    exec .ret (Change.apply { dt, st, k, kp, rndIn } s) = mapNext (Change.apply { dt, st, k, kp, rndIn }) (exec .ret s) := by
  rcases pop_cases s with ⟨h0, -⟩ | ⟨j, hj, hs, -⟩
  · rw [exec_ret_of_empty s (Fin.ext h0)]
    exact exec_ret_of_empty (Change.apply _ s) (Fin.ext h0)
  · rw [exec_ret_of_sp s j hj hs]
    exact exec_ret_of_sp (Change.apply _ s) j hj hs

theorem exec_call_change (dt st rndIn : Byte → Byte) (k kp : BitVec 16 → BitVec 16) (nnn : Addr12) (s : State) :
    exec (.call nnn) (Change.apply { dt, st, k, kp, rndIn } s) =
      mapNext (Change.apply { dt, st, k, kp, rndIn }) (exec (.call nnn) s) := by
  rcases push_cases s s.pc with ⟨h16, -⟩ | ⟨hs, -⟩
  · rw [exec_call_of_full nnn s (Fin.ext h16)]
    exact exec_call_of_full nnn (Change.apply _ s) (Fin.ext h16)
  · rw [exec_call_of_lt nnn s hs]
    exact exec_call_of_lt nnn (Change.apply { dt, st, k, kp, rndIn } s) hs

/-- A change passes through an instruction that reads and writes none of the fields it changes. -/
theorem exec_change (c : Change) (i : Instr) (s : State)
    (hstack : i = .ret ∨ (∃ nnn, i = .call nnn) → c.stk = id ∧ c.sp = id := by exact fun _ => ⟨rfl, rfl⟩)
    (hdt : ∀ x, i = .ldVdt x ∨ i = .ldDtv x → c.dt = id := by exact fun _ _ => rfl)
    (hst : ∀ x, i = .ldStv x → c.st = id := by exact fun _ _ => rfl)
    (hk : ∀ x, i = .skp x ∨ i = .sknp x ∨ i = .wkr x → c.k = id := by exact fun _ _ => rfl)
    (hkp : ∀ x, i = .wkr x → c.kp = id := by exact fun _ _ => rfl)
    (hrnd : ∀ x nn, i = .rnd x nn → c.rndIn = id := by exact fun _ _ _ => rfl) :
    exec i (c.apply s) = mapNext c.apply (exec i s) := by
  obtain ⟨stk, sp, dt, st, k, kp, rndIn⟩ := c
  cases i with
  | ret =>
    obtain ⟨rfl, rfl⟩ : stk = id ∧ sp = id := hstack (.inl rfl)
    exact exec_ret_change dt st rndIn k kp s
  | call nnn =>
    obtain ⟨rfl, rfl⟩ : stk = id ∧ sp = id := hstack (.inr ⟨nnn, rfl⟩)
    exact exec_call_change dt st rndIn k kp nnn s
  | drw | ldB | ldSt | ldLd => exact withMemory_change _ rfl
  | skp x =>
    obtain rfl : k = id := hk x (.inl rfl)
    exact withKey_change _ fun _ => rfl
  | sknp x =>
    obtain rfl : k = id := hk x (.inr (.inl rfl))
    exact withKey_change _ fun _ => rfl
  | wkr x =>
    obtain rfl : k = id := hk x (.inr (.inr rfl))
    obtain rfl : kp = id := hkp x rfl
    exact withKey_change _ fun _ => rfl
  | ldVdt x =>
    obtain rfl : dt = id := hdt x (.inl rfl)
    rfl
  | ldDtv x =>
    obtain rfl : dt = id := hdt x (.inr rfl)
    rfl
  | ldStv x =>
    obtain rfl : st = id := hst x rfl
    rfl
  | rnd x nn =>
    obtain rfl : rndIn = id := hrnd x nn rfl
    rfl
  | _ => rfl

/-! ## The call stack (R25, R26) -/

theorem exec_with_stack (i : Instr) (s : State) (slots : Vector Word 16) (p : Fin 17) (hret : i ≠ .ret)
    (hcall : ∀ nnn, i ≠ .call nnn) :
    exec i { s with stk := slots, sp := p } = mapNext (fun t => { t with stk := slots, sp := p }) (exec i s) :=
  exec_change { stk := fun _ => slots, sp := fun _ => p } i s
    (hstack := fun h => by
      rcases h with h | ⟨nnn, h⟩
      · exact absurd h hret
      · exact absurd h (hcall nnn))

theorem exec_call_with_slots (nnn : Addr12) (s : State) (slots : Vector Word 16) :
    exec (.call nnn) { s with stk := slots } =
      mapNext (fun t => { t with stk := if h : s.sp.val < 16 then slots.set s.sp.val s.pc h else slots }) (exec (.call nnn) s) := by
  rcases push_cases s s.pc with ⟨h16, -⟩ | ⟨hs, -⟩
  · have hnot : ¬ s.sp.val < 16 := by rw [h16]; decide
    rw [exec_call_of_full nnn s (Fin.ext h16), exec_call_of_full nnn { s with stk := slots } (Fin.ext h16)]
    simp only [mapNext, dif_neg hnot]
    rfl
  · rw [exec_call_of_lt nnn s hs, exec_call_of_lt nnn { s with stk := slots } hs]
    simp only [mapNext, dif_pos (show s.sp.val < 16 from hs)]

/-- Settles O50: only the pop and the push touch the stack; a change of the slots passes through every other instruction. -/
theorem onlyCallAndReturnTouchTheStack : Obligations.OnlyCallAndReturnTouchTheStack := by
  refine ⟨fun i s t h => ?_, exec_with_stack, exec_call_with_slots⟩
  cases effect_of_exec h with
  | pops j hj hs => exact ⟨fun hstk => absurd rfl hstk, fun _ => .inl ⟨rfl, hs.symm⟩⟩
  | pushes nnn hs => exact ⟨fun _ => ⟨nnn, rfl⟩, fun _ => .inr ⟨⟨nnn, rfl⟩, rfl⟩⟩
  | _ => exact ⟨fun hstk => absurd rfl hstk, fun hsp => absurd rfl hsp⟩

/-! ## The random byte (R34), the timers (R27), the key samples (R30) -/

/-- Settles O57: a change of the level passes through. -/
theorem randomByteReachesOnlyRandom : Obligations.RandomByteReachesOnlyRandom := fun i s r hrnd =>
  exec_change { rndIn := fun _ => r } i s (hrnd := fun x nn h => absurd h (hrnd x nn))

theorem exec_with_dt (i : Instr) (s : State) (v : Byte) (hread : ∀ x, i ≠ .ldVdt x) (hwrite : ∀ x, i ≠ .ldDtv x) :
    exec i { s with dt := v } = mapNext (fun t => { t with dt := v }) (exec i s) :=
  exec_change { dt := fun _ => v } i s (hdt := fun x h => h.elim (absurd · (hread x)) (absurd · (hwrite x)))

theorem exec_with_st (i : Instr) (s : State) (v : Byte) (hwrite : ∀ x, i ≠ .ldStv x) :
    exec i { s with st := v } = mapNext (fun t => { t with st := v }) (exec i s) :=
  exec_change { st := fun _ => v } i s (hst := fun x h => absurd h (hwrite x))

/-- Settles O58: a change of one timer passes through; a timer that is written is written whatever it held. -/
theorem timersAreReadOnlyWhereNamed : Obligations.TimersAreReadOnlyWhereNamed :=
  ⟨exec_with_dt, exec_with_st, fun _ _ _ => ⟨rfl, rfl⟩⟩

theorem exec_with_k (i : Instr) (s : State) (v : BitVec 16) (hskp : ∀ x, i ≠ .skp x) (hsknp : ∀ x, i ≠ .sknp x)
    (hwkr : ∀ x, i ≠ .wkr x) : exec i { s with k := v } = mapNext (fun t => { t with k := v }) (exec i s) :=
  exec_change { k := fun _ => v } i s
    (hk := fun x h => h.elim (absurd · (hskp x)) (·.elim (absurd · (hsknp x)) (absurd · (hwkr x))))

theorem exec_with_kp (i : Instr) (s : State) (v : BitVec 16) (hwkr : ∀ x, i ≠ .wkr x) :
    exec i { s with kp := v } = mapNext (fun t => { t with kp := v }) (exec i s) :=
  exec_change { kp := fun _ => v } i s (hkp := fun x h => absurd h (hwkr x))

/-- Settles O59: a change of one sample passes through. -/
theorem keySamplesAreReadOnlyByKeyInstructions : Obligations.KeySamplesAreReadOnlyByKeyInstructions :=
  ⟨exec_with_k, exec_with_kp⟩

end Sys2Proof.Proofs
end

section
/-! PROOFS. Reset, the step and the tick (10_state.md section 11, 30_encoding.md R93, 60_exceptions.md section 5). -/

namespace Sys2Proof.Proofs

open Machine

/-! ## Reset -/

/-- Outside the glyph table the reset contents are 0. -/
theorem resetByte_outside_font {a : Nat} (h : a < 0x050 ∨ 0x09F < a) : resetByte a = 0 :=
  if_neg (by simp only [fontBase, fontLen]; omega)

/-- The glyph table of 20_memory.md R53, as it lies in memory. -/
theorem readSeq_font : readSeq .fault [] 0x050 80 =
    [0xF0, 0x90, 0x90, 0x90, 0xF0, 0x20, 0x60, 0x20, 0x20, 0x70, 0xF0, 0x10, 0xF0, 0x80, 0xF0, 0xF0, 0x10, 0xF0, 0x10, 0xF0] ++
    [0x90, 0x90, 0xF0, 0x10, 0x10, 0xF0, 0x80, 0xF0, 0x10, 0xF0, 0xF0, 0x80, 0xF0, 0x90, 0xF0, 0xF0, 0x10, 0x20, 0x40, 0x40] ++
    [0xF0, 0x90, 0xF0, 0x90, 0xF0, 0xF0, 0x90, 0xF0, 0x10, 0xF0, 0xF0, 0x90, 0xF0, 0x90, 0x90, 0xE0, 0x90, 0xE0, 0x90, 0xE0] ++
    [0xF0, 0x80, 0x80, 0x80, 0xF0, 0xE0, 0x90, 0x90, 0x90, 0xE0, 0xF0, 0x80, 0xF0, 0x80, 0xF0, 0xF0, 0x80, 0xF0, 0x80, 0x80] := by
  decide

/-- Settles O1: both resets leave the same machine; they differ in what the host has fixed for its ports alone. -/
theorem resetLeavesTheStatedValues : Obligations.ResetLeavesTheStatedValues := by
  intro t ht
  obtain ⟨env, rfl⟩ : ∃ env, t = { State.reset with env := env } := by
    rcases ht with rfl | ⟨s, rfl⟩
    · exact ⟨HostSide.reset, rfl⟩
    · exact ⟨_, rfl⟩
  exact ⟨fun r => Vector.getElem_replicate r.isLt, rfl, rfl, rfl, fun j h => Vector.getElem_replicate h, rfl, rfl,
    cell_clearFb, rfl, rfl, rfl, rfl, rfl, rfl, fun a ha => resetByte_outside_font ha, readSeq_font⟩

theorem inv_reset : Inv State.reset where
  memCanonical := rfl
  slotBound j h := by
    rw [show State.reset.stk[j] = 0 from Vector.getElem_replicate h]
    decide
  pcBound := by decide
  causeIffHalted := by decide

/-- Settles O2: at reset every clause is a closed fact. -/
theorem resetMeetsTheInvariant : Obligations.ResetMeetsTheInvariant := inv_reset

/-! ## The phases before the meaning, as one update of the state -/

theorem drive_draws (e : HostSide) : e.drive.draws = if e.pending = [] then e.draws + 1 else e.draws := by
  simp only [HostSide.drive, List.isEmpty_iff]

/-- The state the fetch sees: the ports driven and the keys sampled. -/
theorem sample_drivePorts (s : State) : sample (drivePorts s) =
    { s with
      kp := s.k
      k := s.env.nextLevels.keyIn
      env := { s.env with
        keyIn := s.env.nextLevels.keyIn
        rndIn := s.env.nextLevels.rndIn
        tickIn := s.env.nextLevels.tick
        loadOpen := false
        refresh := none
        pending := s.env.pending.tail
        draws := if s.env.pending = [] then s.env.draws + 1 else s.env.draws } } := by
  rw [← drive_draws]; rfl

theorem step_of_running {s : State} (h : s.halt = false) : step s = atBoundary (cycle (drivePorts s)) := by
  rw [step, h]; rfl

theorem cycle_of_fetched {s : State} (h : s.pc.toNat ≤ 0xFFE) :
    cycle s = exec (decode (wordOfBytes (s.mem.read s.pc.toNat) (s.mem.read (s.pc.toNat + 1)))) (advance (sample s)) := by
  rw [cycle, fetch_ok (sample s) h]; rfl

theorem cycle_of_not_fetched {s : State} (h : 0xFFE < s.pc.toNat) : cycle s = .next (raiseFetch (sample s)) := by
  rw [cycle, fetch_out_of_bounds (sample s) h]

/-- Settles O4: the two fetched bytes make `op`, and the phases before the meaning are one update of the state. -/
theorem stepRunsTheDecodedInstruction : Obligations.StepRunsTheDecodedInstruction := by
  intro s op hs hpc hop
  have hword : wordOfBytes (s.mem.read s.pc.toNat) (s.mem.read (s.pc.toNat + 1)) = op :=
    BitVec.eq_of_toNat_eq ((wordOfBytes_toNat _ _).trans hop.symm)
  rw [step_of_running hs, cycle_of_fetched (s := drivePorts s) hpc, advance, sample_drivePorts]
  simp only [drivePorts_mem, drivePorts_pc, hword, nextInsn_eq]

theorem boundary_of_halted {s : State} (h : s.halt = true) : boundary s = s := by
  rw [boundary, if_pos h]

/-- Settles O5: the failed fetch halts the sampled state, on which the boundary does nothing. -/
theorem fetchOutsideMemoryHalts : Obligations.FetchOutsideMemoryHalts := by
  intro s hs hpc
  rw [step_of_running hs, cycle_of_not_fetched (s := drivePorts s) hpc, atBoundary, boundary_of_halted rfl, raiseFetch,
    sample_drivePorts, BitVec.ofNat_toNat]
  rfl

/-- Settles O6: both the step and the boundary test `HALT` first. -/
theorem haltedMachineTakesNoStep : Obligations.HaltedMachineTakesNoStep :=
  fun _ h => ⟨if_pos h, boundary_of_halted h⟩

/-- A cycle always answers. -/
theorem cycle_next (s : State) : ∃ t, cycle s = .next t := by
  rcases cycle_cases s with ⟨-, h⟩ | ⟨-, op, h⟩
  · exact ⟨_, h⟩
  · obtain ⟨t, ht, -⟩ := exec_effect (decode op) (advance (sample s))
    exact ⟨t, h.trans ht⟩

/-- Settles O7: every instruction answers, so the cycle does, and so does the step. -/
theorem runningMachineAlwaysSteps : Obligations.RunningMachineAlwaysSteps := by
  refine ⟨fun i s => ?_, fun s hs => ?_⟩
  · obtain ⟨t, ht, -⟩ := exec_effect i s
    exact ⟨t, ht⟩
  · obtain ⟨t, ht⟩ := cycle_next (drivePorts s)
    exact ⟨boundary t, by rw [step_of_running hs, ht]; rfl⟩

/-! ## The tick -/

/-- One count down, as a number: the truncated subtraction is the floor at 0. -/
theorem countDown_toNat (v : Byte) : (countDown v).toNat = v.toNat - 1 := by
  unfold countDown
  split
  · next h => rw [h]; rfl
  · next h => bv_omega

theorem tick_dt (s : State) : (tick s).dt = countDown s.dt := rfl
theorem tick_st (s : State) : (tick s).st = countDown s.st := rfl

theorem tick_iterate (n : Nat) (s : State) :
    (tick^[n] s).dt.toNat = s.dt.toNat - n ∧ (tick^[n] s).st.toNat = s.st.toNat - n := by
  induction n with
  | zero => exact ⟨rfl, rfl⟩
  | succ n ih =>
    obtain ⟨hdt, hst⟩ := ih
    rw [Function.iterate_succ_apply', tick_dt, tick_st, countDown_toNat, countDown_toNat, hdt, hst, Nat.sub_sub, Nat.sub_sub]
    exact ⟨rfl, rfl⟩

theorem tickWhen_false (s : State) : tickWhen false s = s := rfl

theorem boundary_eq (s : State) : boundary s = if s.halt = false ∧ s.env.tickIn = true then tick s else s := by
  unfold boundary
  cases hh : s.halt with
  | true => simp
  | false => cases ht : s.env.tickIn <;> simp [tick, tickWhen_false]

/-- Settles O40: one count down is a truncated subtraction, and n of them subtract n. -/
theorem tickPresentsThenCountsDown : Obligations.TickPresentsThenCountsDown :=
  ⟨fun _ => rfl, boundary_eq, fun s n => tick_iterate n s⟩

/-! ## FX0A over a whole step -/

/-- FX0A goes back to its own address (R175). -/
theorem word_add_two_sub_two (a : Word) : a + 2 - 2 = a := by bv_omega

/-- Settles O39: the cycle runs FX0A on the state with `pc` advanced and the new samples, and the boundary leaves what is claimed. -/
theorem keyWaitRepeatsUntilTheReleaseEdge : Obligations.KeyWaitRepeatsUntilTheReleaseEdge := by
  intro x s t hs hpc hop hx h
  obtain ⟨-, u, hu, rfl⟩ := step_next h
  obtain ⟨bx, bpc, -, -, -, -, -, bk, bkp, bhalt, -⟩ := boundary_frame u
  have hcycle := cycle_of_fetched (s := drivePorts s) hpc
  rw [show (drivePorts s).mem = s.mem from rfl, show (drivePorts s).pc = s.pc from rfl, hop] at hcycle
  obtain rfl := next_unique (hcycle.trans (exec_wkr_of_le x _ (by exact hx))) hu
  refine ⟨bx, bhalt.trans hs, bkp, bk, bpc.trans ?_⟩
  simp only [advance_pc, sample_pc, drivePorts_pc, word_add_two_sub_two]
  rfl

end Sys2Proof.Proofs
end

section
/-! PROOFS. The invariant (10_state.md R38) is kept by every step and by the host, and the load (70_reset_and_hazards.md
R204). -/

namespace Sys2Proof.Proofs

open Machine

/-! ## The invariant -/

/-- The invariant reads six fields. -/
theorem inv_congr {s t : State} (h : Inv s) (hmem : t.mem = s.mem) (hstk : t.stk = s.stk) (hpc : t.pc = s.pc)
    (hhalt : t.halt = s.halt) (hcause : t.cause = s.cause) : Inv t where
  memCanonical := hmem ▸ h.memCanonical
  slotBound := hstk ▸ h.slotBound
  pcBound := hpc ▸ h.pcBound
  causeIffHalted := by rw [hhalt, hcause]; exact h.causeIffHalted

/-- A fatal error keeps the invariant: it is a cause, and the rest is as before. -/
theorem inv_raise {s : State} (h : Inv s) (e : Cause) (he : e ≠ .none) (fpc : Word) (info : Info) :
    Inv (raise e fpc info s) where
  memCanonical := h.memCanonical
  slotBound := h.slotBound
  pcBound := h.pcBound
  causeIffHalted := ⟨fun _ => he, fun _ => rfl⟩

theorem not_mayRaise_none (i : Instr) : ¬ mayRaise i .none := by
  intro h
  cases i with
  | call | ret | drw | ldB | ldSt | ldLd | skp | sknp | wkr => exact Cause.noConfusion h
  | _ => exact h

/-- An instruction keeps the invariant where a fetch put `pc`: past an address inside memory. -/
theorem inv_of_effect {i : Instr} {s t : State} (h : Inv s) (hlo : 2 ≤ s.pc.toNat) (hhi : s.pc.toNat ≤ 0x1000)
    (he : Effect s i t) : Inv t := by
  cases he with
  | movesPc target _ bound => exact { h with pcBound := bound hlo hhi }
  | pops j hj hs => exact { h with pcBound := (h.slotBound j hj).trans (by decide) }
  | pushes nnn hs =>
    refine { h with slotBound := fun j hj => ?_, pcBound := ?_ }
    · change ((s.stk.set s.sp.val s.pc hs)[j]).toNat ≤ 0x1000
      rw [Vector.getElem_set]
      split
      · exact hhi
      · exact h.slotBound j hj
    · change (nnn.setWidth 16).toNat ≤ 0x10FE
      rw [addr12_toNat]
      omega
  | stores base bytes store => exact { h with memCanonical := wf_writeSeq _ bytes base h.memCanonical }
  | raises e info may => exact inv_raise h e (fun he => not_mayRaise_none i (he ▸ may)) _ info
  | _ => exact { h with }

/-- The address after a fetch inside memory does not wrap. -/
theorem word_add_two_toNat {a : Word} (h : a.toNat ≤ 0xFFE) : (a + 2).toNat = a.toNat + 2 := by bv_omega

theorem inv_boundary {s : State} (h : Inv s) : Inv (boundary s) := by
  obtain ⟨-, bpc, -, bstk, -, bmem, -, -, -, bhalt, bcause, -⟩ := boundary_frame s
  exact inv_congr h bmem bstk bpc bhalt bcause

theorem inv_cycle {s t : State} (h : Inv s) (hc : cycle s = .next t) : Inv t := by
  have hsample : Inv (sample s) := { h with }
  rcases cycle_cases s with ⟨-, hfetch⟩ | ⟨hpc, op, hexec⟩
  · exact next_unique hfetch hc ▸ inv_raise hsample _ (by decide) _ _
  · have hnext : (advance (sample s)).pc.toNat = s.pc.toNat + 2 := word_add_two_toNat hpc
    have hadvance : Inv (advance (sample s)) := { hsample with pcBound := hnext.trans_le (by omega) }
    exact inv_of_effect hadvance (by rw [hnext]; omega) (by rw [hnext]; omega) (effect_of_exec (hexec ▸ hc))

theorem inv_step {s t : State} (h : Inv s) (hstep : step s = .next t) : Inv t := by
  obtain ⟨-, u, hu, rfl⟩ := step_next hstep
  exact inv_boundary (inv_cycle (s := drivePorts s) { h with } hu)

/-- Settles O45: a cycle keeps the invariant, and the boundary touches none of its fields. -/
theorem stepKeepsTheInvariant : Obligations.StepKeepsTheInvariant := fun _ _ => inv_step

/-! ## The host's actions -/

theorem hostLoad_of_open (image : List Byte) {s : State} (h : s.env.loadOpen = true) :
    hostLoad image s = .next
      { s with mem := writeSeq .fault s.mem progBase (image.take progMaxLen), env := { s.env with loadOpen := false } } := by
  rw [hostLoad, if_pos h]

theorem hostLoad_of_closed (image : List Byte) (s : State) (h : s.env.loadOpen = false) :
    hostLoad image s = .refused .loadNotPermitted := by
  rw [hostLoad, h]; rfl

theorem inv_hostLoad {image : List Byte} {s t : State} (h : Inv s) (hload : hostLoad image s = .next t) : Inv t := by
  cases hopen : s.env.loadOpen with
  | true =>
    exact next_unique (hostLoad_of_open image hopen) hload ▸ { h with memCanonical := wf_writeSeq _ _ _ h.memCanonical }
  | false =>
    rw [hostLoad_of_closed image s hopen] at hload
    cases hload

/-- Settles O46: by induction on how the state is reached. -/
theorem reachableStatesMeetTheInvariant : Obligations.ReachableStatesMeetTheInvariant := by
  intro s hs
  induction hs with
  | reset => exact inv_reset
  | step _ hstep ih => exact inv_step ih hstep
  | hostReset => exact { inv_reset with }
  | hostLoad _ hload ih => exact inv_hostLoad ih hload
  | hostDrive _ ih => exact { ih with }

/-- An image's bytes after a load: 3584 of them at most, from 0x200 upwards. -/
theorem read_loaded (image : List Byte) (m : Memory) (a : Nat) :
    (writeSeq .fault m progBase (image.take progMaxLen)).read a =
      if h : 0x200 ≤ a ∧ a < 0x200 + min image.length 3584 then image[a - 0x200]'(by omega) else m.read a := by
  have hlen : (image.take progMaxLen).length = min image.length 3584 := by rw [List.length_take, Nat.min_comm]
  rw [read_writeSeq _ _ _ _ (by rw [hlen]; simp only [progBase, memSize]; omega)]
  simp only [hlen, progBase, List.getElem_take]

/-- The first cycle closes the load, and nothing opens it but a reset. -/
theorem step_loadOpen {s t : State} (h : step s = .next t) : t.env.loadOpen = false := by
  obtain ⟨-, u, hu, rfl⟩ := step_next h
  obtain ⟨-, -, -, -, -, -, -, -, -, -, -, -, -, hboundary⟩ := boundary_frame u
  rw [hboundary]
  rcases cycle_cases (drivePorts s) with ⟨-, hfetch⟩ | ⟨-, op, hexec⟩
  · exact next_unique hfetch hu ▸ rfl
  · obtain ⟨-, -, henv⟩ := noInstructionChangesSamplesOrPorts _ _ _ (hexec ▸ hu)
    rw [henv]; rfl

/-- Settles O60: the load is one run of writes, and every cycle closes it. -/
theorem loadPlacesTheImageOnce : Obligations.LoadPlacesTheImageOnce := by
  refine ⟨fun image s hopen => ⟨_, hostLoad_of_open image hopen, fun j h hj => ?_, fun a ha => ?_⟩, hostLoad_of_closed, rfl,
    fun _ => rfl, fun _ _ => step_loadOpen⟩
  · rw [read_loaded, dif_pos (by omega)]
    simp only [Nat.add_sub_cancel_left]
  · rw [read_loaded, dif_neg (by omega)]

end Sys2Proof.Proofs
end
